-- ==== Sys2Proof/Word.lean ====
section
/-! DEFINITION. The widths of the core (rule R2 of spec/00_scope.md): bytes, 16-bit addresses, 9-bit flag sources. -/

namespace Sys2Proof

/-- An 8-bit quantity: a memory cell, a register `sp`, `a`, `x`, `y`, an opcode, an operand byte (rule R2). -/
abbrev Byte := BitVec 8

/-- A 16-bit address. Every address is reduced modulo 0x10000 (rules R2, R48), so it is 16 bits by type. -/
abbrev Address := BitVec 16

/-- A 9-bit quantity: `nz_accumulator` and `page_base` (rule R2). -/
abbrev NineBits := BitVec 9

end Sys2Proof
end

