-- ==== Sys2Proof/Syntax.lean ====
section
/-! DEFINITION. The instructions: one constructor per row of spec/opcode_table.json (rule R63 of spec/30_encoding.md). -/

namespace Sys2Proof

/-- The 66 assigned instructions (rule R63). The operand fields are those of rule R62: `imm` the immediate byte, `dp` the
direct-page operand byte, `addr` the 16-bit absolute operand already assembled, `rel` the displacement byte. `Idx` in a
name marks the absolute indexed forms `!abs+X` and `!abs+Y`; the other letters follow the assembler order, destination
first (rule R67). -/
inductive Instr where
  -- Load (spec/41_load.md, rules R101 to R111)
  | movAImm (imm : Byte)
  | movADp (dp : Byte)
  | movAAbs (addr : Address)
  | movAAbsIdxX (addr : Address)
  | movAAbsIdxY (addr : Address)
  | movXImm (imm : Byte)
  | movXDp (dp : Byte)
  | movXAbs (addr : Address)
  | movYImm (imm : Byte)
  | movYDp (dp : Byte)
  | movYAbs (addr : Address)
  -- Store (spec/42_store.md, rules R121 to R129)
  | movDpA (dp : Byte)
  | movAbsA (addr : Address)
  | movAbsIdxXA (addr : Address)
  | movAbsIdxYA (addr : Address)
  | movDpX (dp : Byte)
  | movAbsX (addr : Address)
  | movDpY (dp : Byte)
  | movAbsY (addr : Address)
  | movDpImm (dp imm : Byte)
  -- Logical (spec/43_logical.md, rules R141 to R155)
  | orAImm (imm : Byte)
  | orADp (dp : Byte)
  | orAAbs (addr : Address)
  | orAAbsIdxX (addr : Address)
  | orAAbsIdxY (addr : Address)
  | andAImm (imm : Byte)
  | andADp (dp : Byte)
  | andAAbs (addr : Address)
  | andAAbsIdxX (addr : Address)
  | andAAbsIdxY (addr : Address)
  | eorAImm (imm : Byte)
  | eorADp (dp : Byte)
  | eorAAbs (addr : Address)
  | eorAAbsIdxX (addr : Address)
  | eorAAbsIdxY (addr : Address)
  -- Increment and Decrement (spec/44_incdec.md, rules R161 to R170)
  | incA
  | incX
  | incY
  | incDp (dp : Byte)
  | incAbs (addr : Address)
  | decA
  | decX
  | decY
  | decDp (dp : Byte)
  | decAbs (addr : Address)
  -- Shift and rotate (spec/45_shift.md, rules R181 to R192)
  | aslA
  | aslDp (dp : Byte)
  | aslAbs (addr : Address)
  | lsrA
  | lsrDp (dp : Byte)
  | lsrAbs (addr : Address)
  | rolA
  | rolDp (dp : Byte)
  | rolAbs (addr : Address)
  | rorA
  | rorDp (dp : Byte)
  | rorAbs (addr : Address)
  -- Branch (spec/46_branch.md, rules R200 to R208)
  | bra (rel : Byte)
  | bpl (rel : Byte)
  | bmi (rel : Byte)
  | bvc (rel : Byte)
  | bvs (rel : Byte)
  | bcc (rel : Byte)
  | bcs (rel : Byte)
  | bne (rel : Byte)
  | beq (rel : Byte)
  deriving DecidableEq, Repr

end Sys2Proof
end

