-- ==== Sys2Proof/Config.lean ====
section
/-! DEFINITION. What the machine fixes once: the type of the parameter `base_cycle_cost` (rule R3) and what an address
that the model's sparse memory does not list reads as. -/

namespace Sys2Proof.Config

/-- The parameter `base_cycle_cost : Opcode -> Nat` of rule R3, "defined on the 66 assigned opcodes". An `Instr` always
has an assigned opcode, so a table over `Instr` has exactly that domain (it is undefined on the 190 unassigned opcodes,
rule R65); that it depends on the opcode alone is part of `Machine.Admissible`. The machine takes it as an argument
(`Machine.stepWith`, `Machine.run`); the default of rule R248 is `Machine.defaultCycleCost`. -/
abbrev CostTable := Instr → Nat

/-- What an address reads as that the sparse memory does not list. A constructed memory holds all 65536 bytes of its
image (rule R25), so this byte is only how such an image is written down (cells that hold it are left out); the one state
whose contents it decides is `State.reset` (DESIGN CHOICE, notes/assumptions/2.md). -/
def unlistedByte : Byte := 0x00#8

end Sys2Proof.Config
end

