-- ==== Sys2Proof/WellFormed.lean ====
section
/-! DEFINITION. Well-formed instructions: every term of `Instr` is one. -/

namespace Sys2Proof

/-- Every term of `Instr` is well formed: each operand field of rule R61 is a whole byte (or the 16 bits of two whole
bytes), "all byte values are valid" (rule R221), no immediate is scaled, no field has a reserved value and no register
number is encoded (rule R62). The widths of `Instr`'s fields already say all of this, so there is nothing left to check
(spec/93_implementation_defined.md U4: "a model should make addresses 16-bit by type"). -/
def Instr.wellFormed (_ : Instr) : Bool := true

end Sys2Proof
end

