-- ==== Sys2Proof/Decode.lean ====
section
/-! DEFINITION. The decoder, total on any bytes and rejecting by name, and after it the encoder; both written from the
opcode table of rule R63 and the formats of rules R61 and R62 (spec/30_encoding.md). -/

namespace Sys2Proof

/-- Why a byte sequence is not an instruction. `unassignedOpcode` is the `Unassigned` answer of rule R65 (the opcode is one
of the 190 bytes of rule R64). `truncated` says that the sequence ends before the instruction does; the machine never
meets it, since its memory has no end (addresses wrap, rule R48). -/
inductive DecodeError where
  | unassignedOpcode (opcode : Byte)
  | truncated
  deriving DecidableEq, Repr

/-- What the decoder answers: the instruction and the bytes after it, or the reason there is none. -/
abbrev DecodeResult := Except DecodeError (Instr × List Byte)

/-! ### The operand formats (rules R61, R62) -/

/-- Format `IMPL`: no operand byte. -/
def noOperand (i : Instr) (bytes : List Byte) : DecodeResult := .ok (i, bytes)

/-- Formats `IMM`, `DP` and `REL`: byte 1 is the operand. -/
def byteOperand (mk : Byte → Instr) : List Byte → DecodeResult
  | b :: rest => .ok (mk b, rest)
  | [] => .error .truncated

/-- The 16-bit operand of format `ABS`: `lo | (hi << 8)`, little-endian (rules R43, R62). -/
def littleEndian (lo hi : Byte) : Address := lo.setWidth 16 ||| (hi.setWidth 16 <<< 8)

/-- Bits 7:0 of an absolute operand, the byte at the lower address (rule R43). -/
def loByte (addr : Address) : Byte := addr.extractLsb' 0 8

/-- Bits 15:8 of an absolute operand, the byte at the next address (rule R43). -/
def hiByte (addr : Address) : Byte := addr.extractLsb' 8 8

/-- Format `ABS`: byte 1 is the low byte of the address, byte 2 the high byte. -/
def wordOperand (mk : Address → Instr) : List Byte → DecodeResult
  | lo :: hi :: rest => .ok (mk (littleEndian lo hi), rest)
  | _ => .error .truncated

/-- Format `DPIMM` (`MOV dp,#imm` only): byte 1 is the immediate, byte 2 the direct-page address (rule R129). -/
def immThenDp (mk : Byte → Byte → Instr) : List Byte → DecodeResult
  | imm :: dp :: rest => .ok (mk dp imm, rest)
  | _ => .error .truncated

/-! ### The decoder (rules R60, R63, R64, R65) -/

/-- The operand decoder that the opcode byte selects: rule R63's 66 rows, in the table's order; every other byte is
unassigned (rule R64). "The opcode byte alone selects the instruction, its length and its format" (rule R60). -/
def decodeOperands (opcode : Byte) : List Byte → DecodeResult :=
  match opcode with
  | 0x04#8 => byteOperand .orADp
  | 0x05#8 => wordOperand .orAAbs
  | 0x08#8 => byteOperand .orAImm
  | 0x0B#8 => byteOperand .aslDp
  | 0x0C#8 => wordOperand .aslAbs
  | 0x10#8 => byteOperand .bpl
  | 0x15#8 => wordOperand .orAAbsIdxX
  | 0x16#8 => wordOperand .orAAbsIdxY
  | 0x1C#8 => noOperand .aslA
  | 0x1D#8 => noOperand .decX
  | 0x24#8 => byteOperand .andADp
  | 0x25#8 => wordOperand .andAAbs
  | 0x28#8 => byteOperand .andAImm
  | 0x2B#8 => byteOperand .rolDp
  | 0x2C#8 => wordOperand .rolAbs
  | 0x2F#8 => byteOperand .bra
  | 0x30#8 => byteOperand .bmi
  | 0x35#8 => wordOperand .andAAbsIdxX
  | 0x36#8 => wordOperand .andAAbsIdxY
  | 0x3C#8 => noOperand .rolA
  | 0x3D#8 => noOperand .incX
  | 0x44#8 => byteOperand .eorADp
  | 0x45#8 => wordOperand .eorAAbs
  | 0x48#8 => byteOperand .eorAImm
  | 0x4B#8 => byteOperand .lsrDp
  | 0x4C#8 => wordOperand .lsrAbs
  | 0x50#8 => byteOperand .bvc
  | 0x55#8 => wordOperand .eorAAbsIdxX
  | 0x56#8 => wordOperand .eorAAbsIdxY
  | 0x5C#8 => noOperand .lsrA
  | 0x6B#8 => byteOperand .rorDp
  | 0x6C#8 => wordOperand .rorAbs
  | 0x70#8 => byteOperand .bvs
  | 0x7C#8 => noOperand .rorA
  | 0x8B#8 => byteOperand .decDp
  | 0x8C#8 => wordOperand .decAbs
  | 0x8D#8 => byteOperand .movYImm
  | 0x8F#8 => immThenDp .movDpImm
  | 0x90#8 => byteOperand .bcc
  | 0x9C#8 => noOperand .decA
  | 0xAB#8 => byteOperand .incDp
  | 0xAC#8 => wordOperand .incAbs
  | 0xB0#8 => byteOperand .bcs
  | 0xBC#8 => noOperand .incA
  | 0xC4#8 => byteOperand .movDpA
  | 0xC5#8 => wordOperand .movAbsA
  | 0xC9#8 => wordOperand .movAbsX
  | 0xCB#8 => byteOperand .movDpY
  | 0xCC#8 => wordOperand .movAbsY
  | 0xCD#8 => byteOperand .movXImm
  | 0xD0#8 => byteOperand .bne
  | 0xD5#8 => wordOperand .movAbsIdxXA
  | 0xD6#8 => wordOperand .movAbsIdxYA
  | 0xD8#8 => byteOperand .movDpX
  | 0xDC#8 => noOperand .decY
  | 0xE4#8 => byteOperand .movADp
  | 0xE5#8 => wordOperand .movAAbs
  | 0xE8#8 => byteOperand .movAImm
  | 0xE9#8 => wordOperand .movXAbs
  | 0xEB#8 => byteOperand .movYDp
  | 0xEC#8 => wordOperand .movYAbs
  | 0xF0#8 => byteOperand .beq
  | 0xF5#8 => wordOperand .movAAbsIdxX
  | 0xF6#8 => wordOperand .movAAbsIdxY
  | 0xF8#8 => byteOperand .movXDp
  | 0xFC#8 => noOperand .incY
  | _ => fun _ => .error (.unassignedOpcode opcode)

/-- The decoder: an opcode byte, then the operand bytes its format asks for. -/
def decode : List Byte → DecodeResult
  | [] => .error .truncated
  | opcode :: rest => decodeOperands opcode rest

/-- An opcode byte is assigned when rule R63 gives it an instruction (rule R64: "otherwise unassigned"). -/
def assigned (opcode : Byte) : Bool :=
  match decode [opcode, 0, 0] with
  | .ok _ => true
  | .error _ => false

/-- `instruction_length` (rules R5, R65): the length in bytes, told from the opcode byte alone; `none` where it is not
defined, on the unassigned opcodes. -/
def instructionLength (opcode : Byte) : Option Nat :=
  match decode [opcode, 0, 0] with
  | .ok (_, rest) => some (3 - rest.length)
  | .error _ => none

/-- The bytes of an instruction whose bits are numbered as spec/opcode_table.json numbers them: bit 0 is the least
significant bit of the opcode byte, byte k is bits 8k+7 to 8k; the bits from `nbits` up are 0, up to the longest
instruction (3 bytes). -/
def tableBytes (nbits w : Nat) : List Byte :=
  let v := w % 2 ^ nbits
  [BitVec.ofNat 8 v, BitVec.ofNat 8 (v / 2 ^ 8), BitVec.ofNat 8 (v / 2 ^ 16)]

/-- The instruction the decoder reads from those bytes, `none` where it refuses. -/
def decodeTableWord (nbits w : Nat) : Option Instr :=
  match decode (tableBytes nbits w) with
  | .ok (i, _) => some i
  | .error _ => none

/-! ### The encoder (rules R61, R62, R63) -/

/-- The opcode byte of an instruction (rule R63, column "opcode"). -/
def Instr.opcode : Instr → Byte
  | .movAImm _ => 0xE8#8
  | .movADp _ => 0xE4#8
  | .movAAbs _ => 0xE5#8
  | .movAAbsIdxX _ => 0xF5#8
  | .movAAbsIdxY _ => 0xF6#8
  | .movXImm _ => 0xCD#8
  | .movXDp _ => 0xF8#8
  | .movXAbs _ => 0xE9#8
  | .movYImm _ => 0x8D#8
  | .movYDp _ => 0xEB#8
  | .movYAbs _ => 0xEC#8
  | .movDpA _ => 0xC4#8
  | .movAbsA _ => 0xC5#8
  | .movAbsIdxXA _ => 0xD5#8
  | .movAbsIdxYA _ => 0xD6#8
  | .movDpX _ => 0xD8#8
  | .movAbsX _ => 0xC9#8
  | .movDpY _ => 0xCB#8
  | .movAbsY _ => 0xCC#8
  | .movDpImm _ _ => 0x8F#8
  | .orAImm _ => 0x08#8
  | .orADp _ => 0x04#8
  | .orAAbs _ => 0x05#8
  | .orAAbsIdxX _ => 0x15#8
  | .orAAbsIdxY _ => 0x16#8
  | .andAImm _ => 0x28#8
  | .andADp _ => 0x24#8
  | .andAAbs _ => 0x25#8
  | .andAAbsIdxX _ => 0x35#8
  | .andAAbsIdxY _ => 0x36#8
  | .eorAImm _ => 0x48#8
  | .eorADp _ => 0x44#8
  | .eorAAbs _ => 0x45#8
  | .eorAAbsIdxX _ => 0x55#8
  | .eorAAbsIdxY _ => 0x56#8
  | .incA => 0xBC#8
  | .incX => 0x3D#8
  | .incY => 0xFC#8
  | .incDp _ => 0xAB#8
  | .incAbs _ => 0xAC#8
  | .decA => 0x9C#8
  | .decX => 0x1D#8
  | .decY => 0xDC#8
  | .decDp _ => 0x8B#8
  | .decAbs _ => 0x8C#8
  | .aslA => 0x1C#8
  | .aslDp _ => 0x0B#8
  | .aslAbs _ => 0x0C#8
  | .lsrA => 0x5C#8
  | .lsrDp _ => 0x4B#8
  | .lsrAbs _ => 0x4C#8
  | .rolA => 0x3C#8
  | .rolDp _ => 0x2B#8
  | .rolAbs _ => 0x2C#8
  | .rorA => 0x7C#8
  | .rorDp _ => 0x6B#8
  | .rorAbs _ => 0x6C#8
  | .bra _ => 0x2F#8
  | .bpl _ => 0x10#8
  | .bmi _ => 0x30#8
  | .bvc _ => 0x50#8
  | .bvs _ => 0x70#8
  | .bcc _ => 0x90#8
  | .bcs _ => 0xB0#8
  | .bne _ => 0xD0#8
  | .beq _ => 0xF0#8

/-- The operand bytes of an instruction in ascending address order (rules R61, R62). -/
def Instr.operandBytes : Instr → List Byte
  | .incA | .incX | .incY | .decA | .decX | .decY | .aslA | .lsrA | .rolA | .rorA => []
  | .movAImm v | .movADp v | .movXImm v | .movXDp v | .movYImm v | .movYDp v | .movDpA v | .movDpX v
  | .movDpY v | .orAImm v | .orADp v | .andAImm v | .andADp v | .eorAImm v | .eorADp v | .incDp v
  | .decDp v | .aslDp v | .lsrDp v | .rolDp v | .rorDp v | .bra v | .bpl v | .bmi v | .bvc v | .bvs v
  | .bcc v | .bcs v | .bne v | .beq v => [v]
  | .movAAbs v | .movAAbsIdxX v | .movAAbsIdxY v | .movXAbs v | .movYAbs v | .movAbsA v | .movAbsIdxXA v
  | .movAbsIdxYA v | .movAbsX v | .movAbsY v | .orAAbs v | .orAAbsIdxX v | .orAAbsIdxY v | .andAAbs v
  | .andAAbsIdxX v | .andAAbsIdxY v | .eorAAbs v | .eorAAbsIdxX v | .eorAAbsIdxY v | .incAbs v | .decAbs v
  | .aslAbs v | .lsrAbs v | .rolAbs v | .rorAbs v => [loByte v, hiByte v]
  | .movDpImm dp imm => [imm, dp]

/-- The words (bytes) of an instruction. -/
def encode (i : Instr) : List Byte := i.opcode :: i.operandBytes

/-- The length of an instruction in bytes (rule R60: "1 (opcode only) up to 3 (opcode + 2 operand bytes)"). -/
def Instr.length (i : Instr) : Nat := (encode i).length

/-! ### The formats of rule R61 -/

/-- The six formats of rule R61. -/
inductive Format where
  | impl | imm | dp | rel | abs | dpImm
  deriving DecidableEq, Repr

/-- Rule R61, column "length". -/
def Format.length : Format → Nat
  | .impl => 1
  | .imm | .dp | .rel => 2
  | .abs | .dpImm => 3

/-- Rule R63, column "format". -/
def Instr.format : Instr → Format
  | .movAImm _ | .movXImm _ | .movYImm _ | .orAImm _ | .andAImm _ | .eorAImm _ => .imm
  | .movADp _ | .movXDp _ | .movYDp _ | .movDpA _ | .movDpX _ | .movDpY _ | .orADp _ | .andADp _ | .eorADp _
  | .incDp _ | .decDp _ | .aslDp _ | .lsrDp _ | .rolDp _ | .rorDp _ => .dp
  | .movAAbs _ | .movAAbsIdxX _ | .movAAbsIdxY _ | .movXAbs _ | .movYAbs _ | .movAbsA _ | .movAbsIdxXA _
  | .movAbsIdxYA _ | .movAbsX _ | .movAbsY _ | .orAAbs _ | .orAAbsIdxX _ | .orAAbsIdxY _ | .andAAbs _
  | .andAAbsIdxX _ | .andAAbsIdxY _ | .eorAAbs _ | .eorAAbsIdxX _ | .eorAAbsIdxY _ | .incAbs _ | .decAbs _
  | .aslAbs _ | .lsrAbs _ | .rolAbs _ | .rorAbs _ => .abs
  | .movDpImm _ _ => .dpImm
  | .incA | .incX | .incY | .decA | .decX | .decY | .aslA | .lsrA | .rolA | .rorA => .impl
  | .bra _ | .bpl _ | .bmi _ | .bvc _ | .bvs _ | .bcc _ | .bcs _ | .bne _ | .beq _ => .rel

end Sys2Proof
end

