-- ==== Sys2Proof/Machine/State.lean ====
section
/-! DEFINITION. The state of the core: the ten elements of spec/10_state.md, as plain data, and the state after reset. -/

namespace Sys2Proof.Machine

/-- The memory image (rule R18), 65536 byte cells, written down sparsely: pairs (address, byte) with addresses strictly
rising and below 65536, and no pair that holds the byte an unlisted address reads as (`Memory.wf`). -/
abbrev Memory := List Host.Cell

/-- The registers an instruction names, `r[k]` for `k` in {A, X, Y} (spec/00_scope.md section 5). -/
inductive Reg where
  | a | x | y
  deriving DecidableEq, Repr

/-- The whole state of the core (spec/10_state.md: "Ten elements in all"). -/
structure State where
  /-- Program counter, 16 bits (rule R11). -/
  pc : Address
  /-- Stack pointer, 8 bits: held and reported, used by no instruction (rule R12). -/
  sp : Byte
  /-- Accumulator, 8 bits (rule R13). -/
  a : Byte
  /-- Index register X, 8 bits (rule R14). -/
  x : Byte
  /-- Index register Y, 8 bits (rule R14). -/
  y : Byte
  /-- `page_base`: the P flag as an address offset, 0x000 or 0x100 (rule R15). -/
  pageBase : NineBits
  /-- `nz_accumulator`: the source of the N and Z flags (rule R16). -/
  nzAccumulator : NineBits
  /-- `status_residual`: the flags V, B, H, I, C in status-byte position, bits 7, 5, 1 always 0 (rule R17). -/
  statusResidual : Byte
  /-- The memory image (rule R18). -/
  memory : Memory
  /-- The cycle counter of the dispatch FSM, an unbounded natural number (rules R4, R24). -/
  cycles : Nat
  deriving DecidableEq, Repr

/-- Why a step can stop. -/
inductive Fault where
  /-- Raised by `raiseUnimplemented`, at an instruction boundary, when the byte at `pc` is an unassigned opcode: "the only
  exception the core raises" (rule R220). It records the address of the offending byte and the byte. Safe: it is the
  spec's own outcome, reported to the host with no state changed (rule R224). -/
  | unimplementedInstruction (pc : Address) (opcode : Byte)
  deriving DecidableEq, Repr

/-- Why a request has no meaning. -/
inductive Refusal where
  /-- An instruction without a meaning yet, by its mnemonic in spec/opcode_table.json. Safe. No arm of `exec` answers it:
  all 66 instructions have their meaning. -/
  | notModelled (mnemonic : String)
  /-- Raised by `transact` alone: a host transaction other than `construct` before the first `construct` (rule R241:
  "`run`, `snapshot()` and host memory access are refused"). Safe. -/
  | notConstructed
  /-- Raised by `runLoop` alone: the cost table breaks the constraints of rule R3, so the loop of rule R80 need not end.
  Safe; it cannot happen with an admissible table. -/
  | inadmissibleCostTable
  deriving DecidableEq, Repr

/-- What one instruction, or one step, answers. -/
abbrev Result := Host.Outcome State Fault Refusal

/-- The state after reset. This hardware's reset is `construct(snapshot)` and "has no reset input, no power-on values and
no reset vector" (rules R25, R240), so the values come from a snapshot: this is the state that `construct` makes of the
snapshot whose registers, status byte and memory are all zero (DESIGN CHOICE, notes/assumptions/1.md; the theorem
`State.reset_eq_construct` of Laws/Session.lean says so). A status byte 0x00 has N = 0 and Z = 0, which rule R25 encodes as
`nz_accumulator` = 0x001. -/
def State.reset : State where
  pc := 0x0000#16
  sp := 0x00#8
  a := 0x00#8
  x := 0x00#8
  y := 0x00#8
  pageBase := 0x000#9
  nzAccumulator := 0x001#9
  statusResidual := 0x00#8
  memory := []
  cycles := 0

end Sys2Proof.Machine
end

