-- ==== Sys2Proof/Machine/Ops.lean ====
section
/-! DEFINITION. The named operations over memory, registers and the program counter, the fetch, and the one exception. -/

namespace Sys2Proof.Machine

/-! ### Memory (spec/20_memory.md) -/

/-- The sparse form of one cell: nothing for the byte an unlisted address reads as. -/
def Memory.cell (key : Nat) (v : Byte) : Memory :=
  if v = Config.unlistedByte then [] else [(key, v)]

/-- The byte stored under an address key, or the byte an unlisted address reads as. -/
def Memory.lookup : Memory → Nat → Byte
  | [], _ => Config.unlistedByte
  | (k, v) :: m, key => if k = key then v else Memory.lookup m key

/-- Leaves out every cell under an address key. -/
def Memory.erase (m : Memory) (key : Nat) : Memory := m.filter fun c => decide (c.1 ≠ key)

/-- Lists a byte under an address key that is not listed yet, before the first larger key. -/
def Memory.place : Memory → Nat → Byte → Memory
  | [], key, v => [(key, v)]
  | (k, w) :: m, key, v => if key < k then (key, v) :: (k, w) :: m else (k, w) :: Memory.place m key v

/-- Puts a byte under an address key, keeping the canonical form: a cell that would hold the byte an unlisted address reads
as is left out. -/
def Memory.insert (m : Memory) (key : Nat) (v : Byte) : Memory :=
  if v = Config.unlistedByte then m.erase key else (m.erase key).place key v

/-- `MemRead(addr, 1)` (rule R41): total, and without effect on any state. The address is reduced to 16 bits by type. -/
def Memory.read (m : Memory) (addr : Address) : Byte := Memory.lookup m addr.toNat

/-- `MemWrite(addr, 1, v)` (rule R42): changes that one cell and nothing else; every cell is writable. -/
def Memory.write (m : Memory) (addr : Address) (v : Byte) : Memory := Memory.insert m addr.toNat v

/-- The canonical form from a lower bound on: keys strictly rising, below 65536, no cell that holds the unlisted byte. -/
def Memory.wfFrom : Nat → Memory → Bool
  | _, [] => true
  | low, (k, v) :: m =>
    decide (low ≤ k) && decide (k < 65536) && decide (v ≠ Config.unlistedByte) && Memory.wfFrom (k + 1) m

/-- The canonical form of a memory. -/
def Memory.wf (m : Memory) : Bool := Memory.wfFrom 0 m

/-- The memory whose cells from a key on are the bytes of a list (the image of `construct`, rule R25). -/
def Memory.ofBytes : Nat → List Byte → Memory
  | _, [] => []
  | key, v :: bytes => Memory.cell key v ++ Memory.ofBytes (key + 1) bytes

/-- A data or instruction read of the core (rules R41, R45). -/
def State.readByte (s : State) (addr : Address) : Byte := s.memory.read addr

/-- A data write of the core (rules R42, R45). -/
def State.writeByte (s : State) (addr : Address) (v : Byte) : State := { s with memory := s.memory.write addr v }

/-- Writes bytes at ascending addresses, each reduced to 16 bits (rules R60, R245). -/
def State.writeBytes (s : State) (addr : Address) : List Byte → State
  | [] => s
  | v :: bytes => State.writeBytes (s.writeByte addr v) (addr + 1#16) bytes

/-! ### Registers (rules R10 to R14) -/

/-- Reads `r[k]`. -/
def State.reg (s : State) : Reg → Byte
  | .a => s.a
  | .x => s.x
  | .y => s.y

/-- Writes `r[k] <- v`. -/
def State.setReg (s : State) (k : Reg) (v : Byte) : State :=
  match k with
  | .a => { s with a := v }
  | .x => { s with x := v }
  | .y => { s with y := v }

/-- Writes `pc <- target` (rule R11). -/
def State.setPc (s : State) (target : Address) : State := { s with pc := target }

/-- Advances `pc` by a number of bytes, modulo 0x10000 (rule R11). -/
def State.advancePc (s : State) (n : Nat) : State := s.setPc (s.pc + BitVec.ofNat 16 n)

/-- `cycles <- cycles + n`, the commit of a cost (rule R80 step 3). -/
def State.addCycles (s : State) (n : Nat) : State := { s with cycles := s.cycles + n }

/-- `cycles <- cycles - 2`, the correction of an untaken conditional branch (rule R209). Within a step the full cost, at
least 3 (rule R3), has been committed before, so the natural-number subtraction is exact there
(notes/assumptions/6.md). -/
def State.refundUntaken (s : State) : State := { s with cycles := s.cycles - 2 }

/-! ### Fetch (spec/40_dispatch_addressing.md) -/

/-- `Fetch8()` (rule R87): the byte at `pc`, and the state with `pc` one further. -/
def State.fetch8 (s : State) : Byte × State := (s.readByte s.pc, s.advancePc 1)

/-- A run of `Fetch8()`, in ascending address order (rules R60, R87). -/
def State.fetchBytes : Nat → State → List Byte × State
  | 0, s => ([], s)
  | n + 1, s =>
    let (b, s₁) := s.fetch8
    let (bs, s₂) := State.fetchBytes n s₁
    (b :: bs, s₂)

/-- The bytes an instruction at `pc` can occupy: the opcode byte and the two bytes after it, the longest length of rule
R60, at ascending addresses reduced to 16 bits. Reading them has no effect (rule R45). -/
def State.bytesAtPc (s : State) : List Byte :=
  [s.readByte s.pc, s.readByte (s.pc + 1#16), s.readByte (s.pc + 2#16)]

/-- What the decoder says of the byte at `pc` and the bytes after it, `pc` not advanced (rule R80 step 2, "peek"). -/
def State.peek (s : State) : DecodeResult := decode s.bytesAtPc

/-- Step 3 of rule R80 before `execute`: commit the cost and advance `pc` past the opcode byte. -/
def State.commit (s : State) (cost : Nat) : State := (s.addCycles cost).advancePc 1

/-- The operand bytes an instruction consumes by `Fetch8()` (rule R87): `pc` moves past them. The decoder has read their
values already, from the same cells (notes/assumptions/5.md). -/
def State.skipOperands (s : State) (n : Nat) : State := s.advancePc n

/-! ### The one exception (spec/60_exceptions.md) -/

/-- The exception as a value: the address of the offending opcode byte and the byte itself (rule R220). -/
def State.unimplemented (s : State) : Fault := .unimplementedInstruction s.pc (s.readByte s.pc)

/-- Taking `UnimplementedInstruction(pc, opcode)` (rules R220, R224): the step stops with the address of the offending
byte and the byte itself. "Raising `UnimplementedInstruction` changes no architectural state": nothing is saved, no mode
or mask changes, control goes nowhere inside the program; the outcome is the report to the host. There is no return from
it ("no return-from-trap instruction", rule R225). -/
def raiseUnimplemented (s : State) : Result :=
  .fault s.unimplemented

end Sys2Proof.Machine
end

