-- ==== Sys2Proof/Machine/Operands.lean ====
section
/-! DEFINITION. The addressing-mode multiplexer (rules R88 to R94 of spec/40_dispatch_addressing.md). The immediate form
(R88) is the operand byte itself and the register form (R94) is `State.reg` and `State.setReg`. -/

namespace Sys2Proof.Machine

/-- Direct page, `dp` (rule R89): `ea <- d + page_base`, the 8-bit operand within the page that P selects. -/
def State.eaDp (s : State) (dp : Byte) : Address := dp.setWidth 16 + s.pageBase.setWidth 16

/-- Absolute, `!abs` (rule R90): the 16-bit operand; P plays no part. -/
def State.eaAbs (_ : State) (addr : Address) : Address := addr

/-- Absolute indexed by X, `!abs+X` (rule R91): the sum wraps modulo 0x10000. -/
def State.eaAbsX (s : State) (addr : Address) : Address := addr + s.x.setWidth 16

/-- Absolute indexed by Y, `!abs+Y` (rule R92): the sum wraps modulo 0x10000. -/
def State.eaAbsY (s : State) (addr : Address) : Address := addr + s.y.setWidth 16

/-- Relative, `rel` (rule R93): the address after the branch instruction, where `pc` stands when the operand byte has been
consumed, plus the sign-extended displacement, modulo 0x10000. -/
def State.relTarget (s : State) (rel : Byte) : Address := s.pc + rel.signExtend 16

end Sys2Proof.Machine
end

