-- ==== Sys2Proof/Machine/Classes.lean ====
section
/-! DEFINITION. What the opcode table and the family contracts say of an instruction as a whole: its class, the register it
writes, the memory cell it reads or writes. Claims about many instructions at once are made in these terms; no meaning
uses them. -/

namespace Sys2Proof

/-- The six instruction classes of the core (spec/30_encoding.md rule R63, column "class"). -/
inductive InstrClass where
  | load | store | logical | incDec | shift | branch
  deriving DecidableEq, Repr

/-- Rule R63, column "class". -/
def Instr.cls : Instr → InstrClass
  | .movAImm _ | .movADp _ | .movAAbs _ | .movAAbsIdxX _ | .movAAbsIdxY _ | .movXImm _ | .movXDp _
  | .movXAbs _ | .movYImm _ | .movYDp _ | .movYAbs _ => .load
  | .movDpA _ | .movAbsA _ | .movAbsIdxXA _ | .movAbsIdxYA _ | .movDpX _ | .movAbsX _ | .movDpY _
  | .movAbsY _ | .movDpImm _ _ => .store
  | .orAImm _ | .orADp _ | .orAAbs _ | .orAAbsIdxX _ | .orAAbsIdxY _ | .andAImm _ | .andADp _ | .andAAbs _
  | .andAAbsIdxX _ | .andAAbsIdxY _ | .eorAImm _ | .eorADp _ | .eorAAbs _ | .eorAAbsIdxX _ | .eorAAbsIdxY _ => .logical
  | .incA | .incX | .incY | .incDp _ | .incAbs _ | .decA | .decX | .decY | .decDp _ | .decAbs _ => .incDec
  | .aslA | .aslDp _ | .aslAbs _ | .lsrA | .lsrDp _ | .lsrAbs _ | .rolA | .rolDp _ | .rolAbs _ | .rorA
  | .rorDp _ | .rorAbs _ => .shift
  | .bra _ | .bpl _ | .bmi _ | .bvc _ | .bvs _ | .bcc _ | .bcs _ | .bne _ | .beq _ => .branch

/-- The eight conditional branches (rules R201 to R209). -/
def Instr.conditional : Instr → Bool
  | .bpl _ | .bmi _ | .bvc _ | .bvs _ | .bcc _ | .bcs _ | .bne _ | .beq _ => true
  | _ => false

namespace Machine

/-- The register that an instruction writes as its destination, if it has one (rules R100, R140, R160, R180). -/
def destReg : Instr → Option Reg
  | .movAImm _ | .movADp _ | .movAAbs _ | .movAAbsIdxX _ | .movAAbsIdxY _ | .orAImm _ | .orADp _ | .orAAbs _
  | .orAAbsIdxX _ | .orAAbsIdxY _ | .andAImm _ | .andADp _ | .andAAbs _ | .andAAbsIdxX _ | .andAAbsIdxY _
  | .eorAImm _ | .eorADp _ | .eorAAbs _ | .eorAAbsIdxX _ | .eorAAbsIdxY _ | .incA | .decA | .aslA | .lsrA
  | .rolA | .rorA => some .a
  | .movXImm _ | .movXDp _ | .movXAbs _ | .incX | .decX => some .x
  | .movYImm _ | .movYDp _ | .movYAbs _ | .incY | .decY => some .y
  | .movDpA _ | .movAbsA _ | .movAbsIdxXA _ | .movAbsIdxYA _ | .movDpX _ | .movAbsX _ | .movDpY _
  | .movAbsY _ | .movDpImm _ _ | .incDp _ | .incAbs _ | .decDp _ | .decAbs _ | .aslDp _ | .aslAbs _
  | .lsrDp _ | .lsrAbs _ | .rolDp _ | .rolAbs _ | .rorDp _ | .rorAbs _ | .bra _ | .bpl _ | .bmi _ | .bvc _
  | .bvs _ | .bcc _ | .bcs _ | .bne _ | .beq _ => none

/-- The address of the one data read of an instruction, by the operand form's own function; `none` for an instruction
that reads no data (rules R46, R88 to R94, R100, R140, R160, R180). -/
def loadAddress (i : Instr) (s : State) : Option Address :=
  match i with
  | .movAImm _ | .movXImm _ | .movYImm _ | .movDpA _ | .movAbsA _ | .movAbsIdxXA _ | .movAbsIdxYA _
  | .movDpX _ | .movAbsX _ | .movDpY _ | .movAbsY _ | .movDpImm _ _ | .orAImm _ | .andAImm _ | .eorAImm _
  | .incA | .incX | .incY | .decA | .decX | .decY | .aslA | .lsrA | .rolA | .rorA | .bra _ | .bpl _
  | .bmi _ | .bvc _ | .bvs _ | .bcc _ | .bcs _ | .bne _ | .beq _ => none
  | .movADp v | .movXDp v | .movYDp v | .orADp v | .andADp v | .eorADp v | .incDp v | .decDp v | .aslDp v
  | .lsrDp v | .rolDp v | .rorDp v => some (s.eaDp v)
  | .movAAbs v | .movXAbs v | .movYAbs v | .orAAbs v | .andAAbs v | .eorAAbs v | .incAbs v | .decAbs v
  | .aslAbs v | .lsrAbs v | .rolAbs v | .rorAbs v => some (s.eaAbs v)
  | .movAAbsIdxX v | .orAAbsIdxX v | .andAAbsIdxX v | .eorAAbsIdxX v => some (s.eaAbsX v)
  | .movAAbsIdxY v | .orAAbsIdxY v | .andAAbsIdxY v | .eorAAbsIdxY v => some (s.eaAbsY v)

/-- The address of the one data write of an instruction, by the operand form's own function; `none` for an instruction
that stores nothing (rules R46, R88 to R94, R120, R160, R180). -/
def storeAddress (i : Instr) (s : State) : Option Address :=
  match i with
  | .movAImm _ | .movADp _ | .movAAbs _ | .movAAbsIdxX _ | .movAAbsIdxY _ | .movXImm _ | .movXDp _
  | .movXAbs _ | .movYImm _ | .movYDp _ | .movYAbs _ | .orAImm _ | .orADp _ | .orAAbs _ | .orAAbsIdxX _
  | .orAAbsIdxY _ | .andAImm _ | .andADp _ | .andAAbs _ | .andAAbsIdxX _ | .andAAbsIdxY _ | .eorAImm _
  | .eorADp _ | .eorAAbs _ | .eorAAbsIdxX _ | .eorAAbsIdxY _ | .incA | .incX | .incY | .decA | .decX
  | .decY | .aslA | .lsrA | .rolA | .rorA | .bra _ | .bpl _ | .bmi _ | .bvc _ | .bvs _ | .bcc _ | .bcs _
  | .bne _ | .beq _ => none
  | .movDpA v | .movDpX v | .movDpY v | .movDpImm v _ | .incDp v | .decDp v | .aslDp v | .lsrDp v
  | .rolDp v | .rorDp v => some (s.eaDp v)
  | .movAbsA v | .movAbsX v | .movAbsY v | .incAbs v | .decAbs v | .aslAbs v | .lsrAbs v | .rolAbs v
  | .rorAbs v => some (s.eaAbs v)
  | .movAbsIdxXA v => some (s.eaAbsX v)
  | .movAbsIdxYA v => some (s.eaAbsY v)

end Machine

end Sys2Proof
end

