-- ==== Sys2Proof/Machine/Cycles.lean ====
section
/-! DEFINITION. The parameter `base_cycle_cost`: the constraints of rule R3 and the default of rule R248. -/

namespace Sys2Proof.Machine

/-- The constraints of rule R3: the cost is "fixed per opcode", at least 1 for every assigned opcode, and at least 3 for
the eight conditional branches, whose entry is the taken cost. -/
def Admissible (T : Config.CostTable) : Prop :=
  (∀ i j : Instr, i.opcode = j.opcode → T i = T j) ∧
  (∀ i : Instr, 1 ≤ T i) ∧
  (∀ i : Instr, i.conditional = true → 3 ≤ T i)

/-- The default value of the parameter (rule R248; the "cost" column of rule R63 and the `cycles` field of
spec/opcode_table.json). The spec marks every number of it as general knowledge, so `step` rests on numbers that no
rule fixes (notes/assumptions/3.md), and the statements about cycles are made for every admissible table. -/
def defaultCycleCost : Config.CostTable
  | .movAImm _ | .movXImm _ | .movYImm _ | .orAImm _ | .andAImm _ | .eorAImm _ | .incA | .incX | .incY
  | .decA | .decX | .decY | .aslA | .lsrA | .rolA | .rorA => 2
  | .movADp _ | .movXDp _ | .movYDp _ | .orADp _ | .andADp _ | .eorADp _ => 3
  | .movAAbs _ | .movXAbs _ | .movYAbs _ | .movDpA _ | .movDpX _ | .movDpY _ | .orAAbs _ | .andAAbs _
  | .eorAAbs _ | .incDp _ | .decDp _ | .aslDp _ | .lsrDp _ | .rolDp _ | .rorDp _ | .bra _ | .bpl _ | .bmi _
  | .bvc _ | .bvs _ | .bcc _ | .bcs _ | .bne _ | .beq _ => 4
  | .movAAbsIdxX _ | .movAAbsIdxY _ | .movAbsA _ | .movAbsX _ | .movAbsY _ | .movDpImm _ _ | .orAAbsIdxX _
  | .orAAbsIdxY _ | .andAAbsIdxX _ | .andAAbsIdxY _ | .eorAAbsIdxX _ | .eorAAbsIdxY _ | .incAbs _
  | .decAbs _ | .aslAbs _ | .lsrAbs _ | .rolAbs _ | .rorAbs _ => 5
  | .movAbsIdxXA _ | .movAbsIdxYA _ => 6

end Sys2Proof.Machine
end

