-- ==== Sys2Proof/Machine/Flags.lean ====
section
/-! DEFINITION. The flag generator (rules R15 to R23 of spec/10_state.md): the derived flags, the status byte, the two
mutators. -/

namespace Sys2Proof.Machine

/-- `N()` (rule R22): bit 7 or bit 8 of `nz_accumulator`. -/
def State.flagN (s : State) : Bool := s.nzAccumulator.getLsbD 7 || s.nzAccumulator.getLsbD 8

/-- `Z()` (rule R22): the low byte of `nz_accumulator` is 0. -/
def State.flagZ (s : State) : Bool := s.nzAccumulator &&& 0x0FF#9 == 0x000#9

/-- `C()` (rule R22): bit 0 of `status_residual`. -/
def State.flagC (s : State) : Bool := s.statusResidual.getLsbD 0

/-- `V()` (rule R22): bit 6 of `status_residual`. -/
def State.flagV (s : State) : Bool := s.statusResidual.getLsbD 6

/-- `P()` (rule R22): `page_base` is 0x100. -/
def State.flagP (s : State) : Bool := s.pageBase == 0x100#9

/-- The Break flag, bit 4 of `status_residual` (rules R17, R19). -/
def State.flagB (s : State) : Bool := s.statusResidual.getLsbD 4

/-- The Half-carry flag, bit 3 of `status_residual` (rules R17, R19). -/
def State.flagH (s : State) : Bool := s.statusResidual.getLsbD 3

/-- The Interrupt-enable flag, bit 2 of `status_residual` (rules R17, R19); it has no effect on execution (rule R222). -/
def State.flagI (s : State) : Bool := s.statusResidual.getLsbD 2

/-- `status_byte()` (rule R20), the four lines of its pseudocode. -/
def State.statusByte (s : State) : Byte :=
  let nz := s.nzAccumulator
  let nBit : Byte := ((nz ||| (nz >>> 1)) &&& 0x080#9).setWidth 8
  let zBit : Byte := if nz &&& 0x0FF#9 = 0x000#9 then 0x02#8 else 0x00#8
  let pBit : Byte := (s.pageBase >>> 3).setWidth 8
  nBit ||| zBit ||| pBit ||| (s.statusResidual &&& 0x5D#8)

/-- `SetNZ(v)` (rule R21): `nz_accumulator <- zext_9(v)`, "the single mutator of N and Z". -/
def State.setNZ (s : State) (v : Byte) : State := { s with nzAccumulator := v.setWidth 9 }

/-- A bit as a byte, 0 or 1. -/
def bitByte (b : Bool) : Byte := (BitVec.ofBool b).setWidth 8

/-- `SetC(b)` (rule R23): `status_residual <- (status_residual & 0x5C) | b`. -/
def State.setC (s : State) (b : Bool) : State :=
  { s with statusResidual := (s.statusResidual &&& 0x5C#8) ||| bitByte b }

/-- `page_base` from a status byte (rule R25): `(s & 0x20) << 3`. -/
def pageBaseOf (status : Byte) : NineBits := (status &&& 0x20#8).setWidth 9 <<< 3

/-- `nz_accumulator` from a status byte (rule R25): bit 0 is the complement of Z, bit 8 is N. -/
def nzAccumulatorOf (status : Byte) : NineBits :=
  ((~~~status >>> 1).setWidth 9 &&& 0x001#9) ||| ((status &&& 0x80#8).setWidth 9 <<< 1)

/-- `status_residual` from a status byte (rule R25): `s & 0x5D`. -/
def statusResidualOf (status : Byte) : Byte := status &&& 0x5D#8

end Sys2Proof.Machine
end

