-- ==== Sys2Proof/Machine/Branch.lean ====
section
/-! DEFINITION. Branch instructions (spec/46_branch.md). -/

namespace Sys2Proof.Machine

/-- The conditional-branch contract (rule R209), once the operand byte has been consumed: taken, `pc` takes the relative
target exactly as `BRA`; untaken, `pc` stays at the next instruction and 2 cycles are given back. -/
def State.branchIf (s : State) (cond : Bool) (rel : Byte) : State :=
  if cond then s.setPc (s.relTarget rel) else s.refundUntaken

/-- `BRA rel` (rule R200). -/
def execBra (rel : Byte) (s : State) : Result :=
  let s := s.skipOperands 1
  .next (s.setPc (s.relTarget rel))

/-- `BPL rel` (rule R201). -/
def execBpl (rel : Byte) (s : State) : Result :=
  let s := s.skipOperands 1
  .next (s.branchIf (!s.flagN) rel)

/-- `BMI rel` (rule R202). -/
def execBmi (rel : Byte) (s : State) : Result :=
  let s := s.skipOperands 1
  .next (s.branchIf s.flagN rel)

/-- `BVC rel` (rule R203). -/
def execBvc (rel : Byte) (s : State) : Result :=
  let s := s.skipOperands 1
  .next (s.branchIf (!s.flagV) rel)

/-- `BVS rel` (rule R204). -/
def execBvs (rel : Byte) (s : State) : Result :=
  let s := s.skipOperands 1
  .next (s.branchIf s.flagV rel)

/-- `BCC rel` (rule R205). -/
def execBcc (rel : Byte) (s : State) : Result :=
  let s := s.skipOperands 1
  .next (s.branchIf (!s.flagC) rel)

/-- `BCS rel` (rule R206). -/
def execBcs (rel : Byte) (s : State) : Result :=
  let s := s.skipOperands 1
  .next (s.branchIf s.flagC rel)

/-- `BNE rel` (rule R207). -/
def execBne (rel : Byte) (s : State) : Result :=
  let s := s.skipOperands 1
  .next (s.branchIf (!s.flagZ) rel)

/-- `BEQ rel` (rule R208). -/
def execBeq (rel : Byte) (s : State) : Result :=
  let s := s.skipOperands 1
  .next (s.branchIf s.flagZ rel)

end Sys2Proof.Machine
end

