-- ==== Sys2Proof/Machine/IncDec.lean ====
section
/-! DEFINITION. Increment and Decrement instructions (spec/44_incdec.md). -/

namespace Sys2Proof.Machine

/-- `(v + 1) & 0xFF` (rule R160): modulo 256. -/
def incOp (v : Byte) : Byte := v + 1#8

/-- `(v - 1) & 0xFF` (rule R160): modulo 256. -/
def decOp (v : Byte) : Byte := v - 1#8

/-- The Increment/Decrement contract (rule R160) on a register. -/
def State.modifyReg (s : State) (op : Byte → Byte) (k : Reg) : State :=
  let r := op (s.reg k)
  (s.setReg k r).setNZ r

/-- The Increment/Decrement contract (rule R160) on a memory cell: read and write of the same address. -/
def State.modifyMem (s : State) (op : Byte → Byte) (ea : Address) : State :=
  let r := op (s.readByte ea)
  (s.writeByte ea r).setNZ r

/-- `INC A` (rule R161). -/
def execIncA (s : State) : Result :=
  .next (s.modifyReg incOp .a)

/-- `INC X` (rule R162). -/
def execIncX (s : State) : Result :=
  .next (s.modifyReg incOp .x)

/-- `INC Y` (rule R163). -/
def execIncY (s : State) : Result :=
  .next (s.modifyReg incOp .y)

/-- `INC dp` (rule R164). -/
def execIncDp (dp : Byte) (s : State) : Result :=
  let s := s.skipOperands 1
  .next (s.modifyMem incOp (s.eaDp dp))

/-- `INC !abs` (rule R165). -/
def execIncAbs (addr : Address) (s : State) : Result :=
  let s := s.skipOperands 2
  .next (s.modifyMem incOp (s.eaAbs addr))

/-- `DEC A` (rule R166). -/
def execDecA (s : State) : Result :=
  .next (s.modifyReg decOp .a)

/-- `DEC X` (rule R167). -/
def execDecX (s : State) : Result :=
  .next (s.modifyReg decOp .x)

/-- `DEC Y` (rule R168). -/
def execDecY (s : State) : Result :=
  .next (s.modifyReg decOp .y)

/-- `DEC dp` (rule R169). -/
def execDecDp (dp : Byte) (s : State) : Result :=
  let s := s.skipOperands 1
  .next (s.modifyMem decOp (s.eaDp dp))

/-- `DEC !abs` (rule R170). -/
def execDecAbs (addr : Address) (s : State) : Result :=
  let s := s.skipOperands 2
  .next (s.modifyMem decOp (s.eaAbs addr))

end Sys2Proof.Machine
end

