-- ==== Sys2Proof/Machine/Load.lean ====
section
/-! DEFINITION. Load instructions (spec/41_load.md): register from memory or immediate. Each meaning starts where rule R81
has it start, with the cost committed and `pc` past the opcode byte. -/

namespace Sys2Proof.Machine

/-- The Load contract (rule R100): writes the value to the destination register and calls `SetNZ` with it. -/
def State.load (s : State) (k : Reg) (v : Byte) : State := (s.setReg k v).setNZ v

/-- `MOV A,#imm` (rule R101). -/
def execMovAImm (imm : Byte) (s : State) : Result :=
  let s := s.skipOperands 1
  .next (s.load .a imm)

/-- `MOV A,dp` (rule R102). -/
def execMovADp (dp : Byte) (s : State) : Result :=
  let s := s.skipOperands 1
  .next (s.load .a (s.readByte (s.eaDp dp)))

/-- `MOV A,!abs` (rule R103). -/
def execMovAAbs (addr : Address) (s : State) : Result :=
  let s := s.skipOperands 2
  .next (s.load .a (s.readByte (s.eaAbs addr)))

/-- `MOV A,!abs+X` (rule R104). -/
def execMovAAbsIdxX (addr : Address) (s : State) : Result :=
  let s := s.skipOperands 2
  .next (s.load .a (s.readByte (s.eaAbsX addr)))

/-- `MOV A,!abs+Y` (rule R105). -/
def execMovAAbsIdxY (addr : Address) (s : State) : Result :=
  let s := s.skipOperands 2
  .next (s.load .a (s.readByte (s.eaAbsY addr)))

/-- `MOV X,#imm` (rule R106). -/
def execMovXImm (imm : Byte) (s : State) : Result :=
  let s := s.skipOperands 1
  .next (s.load .x imm)

/-- `MOV X,dp` (rule R107). -/
def execMovXDp (dp : Byte) (s : State) : Result :=
  let s := s.skipOperands 1
  .next (s.load .x (s.readByte (s.eaDp dp)))

/-- `MOV X,!abs` (rule R108). -/
def execMovXAbs (addr : Address) (s : State) : Result :=
  let s := s.skipOperands 2
  .next (s.load .x (s.readByte (s.eaAbs addr)))

/-- `MOV Y,#imm` (rule R109). -/
def execMovYImm (imm : Byte) (s : State) : Result :=
  let s := s.skipOperands 1
  .next (s.load .y imm)

/-- `MOV Y,dp` (rule R110). -/
def execMovYDp (dp : Byte) (s : State) : Result :=
  let s := s.skipOperands 1
  .next (s.load .y (s.readByte (s.eaDp dp)))

/-- `MOV Y,!abs` (rule R111). -/
def execMovYAbs (addr : Address) (s : State) : Result :=
  let s := s.skipOperands 2
  .next (s.load .y (s.readByte (s.eaAbs addr)))

end Sys2Proof.Machine
end

