-- ==== Sys2Proof/Machine/Logical.lean ====
section
/-! DEFINITION. Logical instructions (spec/43_logical.md): OR, AND, EOR on the accumulator. -/

namespace Sys2Proof.Machine

/-- Inclusive OR, bit by bit (rule R140). -/
def orOp (a m : Byte) : Byte := a ||| m

/-- AND, bit by bit (rule R140). -/
def andOp (a m : Byte) : Byte := a &&& m

/-- Exclusive OR, bit by bit (rule R140). -/
def eorOp (a m : Byte) : Byte := a ^^^ m

/-- The Logical contract (rule R140): `r = a OP m`, `a <- r`, `SetNZ(r)`. -/
def State.logical (s : State) (op : Byte → Byte → Byte) (m : Byte) : State :=
  let r := op s.a m
  (s.setReg .a r).setNZ r

/-- `OR A,#imm` (rule R141). -/
def execOrAImm (imm : Byte) (s : State) : Result :=
  let s := s.skipOperands 1
  .next (s.logical orOp imm)

/-- `OR A,dp` (rule R142). -/
def execOrADp (dp : Byte) (s : State) : Result :=
  let s := s.skipOperands 1
  .next (s.logical orOp (s.readByte (s.eaDp dp)))

/-- `OR A,!abs` (rule R143). -/
def execOrAAbs (addr : Address) (s : State) : Result :=
  let s := s.skipOperands 2
  .next (s.logical orOp (s.readByte (s.eaAbs addr)))

/-- `OR A,!abs+X` (rule R144). -/
def execOrAAbsIdxX (addr : Address) (s : State) : Result :=
  let s := s.skipOperands 2
  .next (s.logical orOp (s.readByte (s.eaAbsX addr)))

/-- `OR A,!abs+Y` (rule R145). -/
def execOrAAbsIdxY (addr : Address) (s : State) : Result :=
  let s := s.skipOperands 2
  .next (s.logical orOp (s.readByte (s.eaAbsY addr)))

/-- `AND A,#imm` (rule R146). -/
def execAndAImm (imm : Byte) (s : State) : Result :=
  let s := s.skipOperands 1
  .next (s.logical andOp imm)

/-- `AND A,dp` (rule R147). -/
def execAndADp (dp : Byte) (s : State) : Result :=
  let s := s.skipOperands 1
  .next (s.logical andOp (s.readByte (s.eaDp dp)))

/-- `AND A,!abs` (rule R148). -/
def execAndAAbs (addr : Address) (s : State) : Result :=
  let s := s.skipOperands 2
  .next (s.logical andOp (s.readByte (s.eaAbs addr)))

/-- `AND A,!abs+X` (rule R149). -/
def execAndAAbsIdxX (addr : Address) (s : State) : Result :=
  let s := s.skipOperands 2
  .next (s.logical andOp (s.readByte (s.eaAbsX addr)))

/-- `AND A,!abs+Y` (rule R150). -/
def execAndAAbsIdxY (addr : Address) (s : State) : Result :=
  let s := s.skipOperands 2
  .next (s.logical andOp (s.readByte (s.eaAbsY addr)))

/-- `EOR A,#imm` (rule R151). -/
def execEorAImm (imm : Byte) (s : State) : Result :=
  let s := s.skipOperands 1
  .next (s.logical eorOp imm)

/-- `EOR A,dp` (rule R152). -/
def execEorADp (dp : Byte) (s : State) : Result :=
  let s := s.skipOperands 1
  .next (s.logical eorOp (s.readByte (s.eaDp dp)))

/-- `EOR A,!abs` (rule R153). -/
def execEorAAbs (addr : Address) (s : State) : Result :=
  let s := s.skipOperands 2
  .next (s.logical eorOp (s.readByte (s.eaAbs addr)))

/-- `EOR A,!abs+X` (rule R154). -/
def execEorAAbsIdxX (addr : Address) (s : State) : Result :=
  let s := s.skipOperands 2
  .next (s.logical eorOp (s.readByte (s.eaAbsX addr)))

/-- `EOR A,!abs+Y` (rule R155). -/
def execEorAAbsIdxY (addr : Address) (s : State) : Result :=
  let s := s.skipOperands 2
  .next (s.logical eorOp (s.readByte (s.eaAbsY addr)))

end Sys2Proof.Machine
end

