-- ==== Sys2Proof/Machine/Shift.lean ====
section
/-! DEFINITION. Shift and rotate instructions (spec/45_shift.md). A shift operation takes the operand and the old Carry
and answers the result and the bit shifted out, as the columns `r` and `c_out` of rule R180's table say. -/

namespace Sys2Proof.Machine

/-- `ASL` (rule R180): left, 0 shifted in. -/
def aslOp (v : Byte) (_cIn : Bool) : Byte × Bool := (v <<< 1, v.getLsbD 7)

/-- `LSR` (rule R180): right, 0 shifted in. -/
def lsrOp (v : Byte) (_cIn : Bool) : Byte × Bool := (v >>> 1, v.getLsbD 0)

/-- `ROL` (rule R180): left, the old Carry shifted in. -/
def rolOp (v : Byte) (cIn : Bool) : Byte × Bool := ((v <<< 1) ||| bitByte cIn, v.getLsbD 7)

/-- `ROR` (rule R180): right, the old Carry shifted in. -/
def rorOp (v : Byte) (cIn : Bool) : Byte × Bool := ((v >>> 1) ||| (bitByte cIn <<< 7), v.getLsbD 0)

/-- The Shift contract (rule R180) on the accumulator: write back, `SetC(c_out)`, `SetNZ(r)`. The old Carry is read before
the new one is written. -/
def State.shiftA (s : State) (op : Byte → Bool → Byte × Bool) : State :=
  let (r, cOut) := op s.a s.flagC
  ((s.setReg .a r).setC cOut).setNZ r

/-- The Shift contract (rule R180) on a memory cell: read and write of the same address. -/
def State.shiftMem (s : State) (op : Byte → Bool → Byte × Bool) (ea : Address) : State :=
  let (r, cOut) := op (s.readByte ea) s.flagC
  ((s.writeByte ea r).setC cOut).setNZ r

/-- `ASL A` (rule R181). -/
def execAslA (s : State) : Result :=
  .next (s.shiftA aslOp)

/-- `ASL dp` (rule R182). -/
def execAslDp (dp : Byte) (s : State) : Result :=
  let s := s.skipOperands 1
  .next (s.shiftMem aslOp (s.eaDp dp))

/-- `ASL !abs` (rule R183). -/
def execAslAbs (addr : Address) (s : State) : Result :=
  let s := s.skipOperands 2
  .next (s.shiftMem aslOp (s.eaAbs addr))

/-- `LSR A` (rule R184). -/
def execLsrA (s : State) : Result :=
  .next (s.shiftA lsrOp)

/-- `LSR dp` (rule R185). -/
def execLsrDp (dp : Byte) (s : State) : Result :=
  let s := s.skipOperands 1
  .next (s.shiftMem lsrOp (s.eaDp dp))

/-- `LSR !abs` (rule R186). -/
def execLsrAbs (addr : Address) (s : State) : Result :=
  let s := s.skipOperands 2
  .next (s.shiftMem lsrOp (s.eaAbs addr))

/-- `ROL A` (rule R187). -/
def execRolA (s : State) : Result :=
  .next (s.shiftA rolOp)

/-- `ROL dp` (rule R188). -/
def execRolDp (dp : Byte) (s : State) : Result :=
  let s := s.skipOperands 1
  .next (s.shiftMem rolOp (s.eaDp dp))

/-- `ROL !abs` (rule R189). -/
def execRolAbs (addr : Address) (s : State) : Result :=
  let s := s.skipOperands 2
  .next (s.shiftMem rolOp (s.eaAbs addr))

/-- `ROR A` (rule R190). -/
def execRorA (s : State) : Result :=
  .next (s.shiftA rorOp)

/-- `ROR dp` (rule R191). -/
def execRorDp (dp : Byte) (s : State) : Result :=
  let s := s.skipOperands 1
  .next (s.shiftMem rorOp (s.eaDp dp))

/-- `ROR !abs` (rule R192). -/
def execRorAbs (addr : Address) (s : State) : Result :=
  let s := s.skipOperands 2
  .next (s.shiftMem rorOp (s.eaAbs addr))

end Sys2Proof.Machine
end

