-- ==== Sys2Proof/Machine/Store.lean ====
section
/-! DEFINITION. Store instructions (spec/42_store.md): memory from register or immediate. -/

namespace Sys2Proof.Machine

/-- The Store contract (rule R120): "exactly one `MemWrite(ea, 1, v)`", nothing else, no flag, no data read. -/
def State.store (s : State) (ea : Address) (v : Byte) : State := s.writeByte ea v

/-- `MOV dp,A` (rule R121). -/
def execMovDpA (dp : Byte) (s : State) : Result :=
  let s := s.skipOperands 1
  .next (s.store (s.eaDp dp) s.a)

/-- `MOV !abs,A` (rule R122). -/
def execMovAbsA (addr : Address) (s : State) : Result :=
  let s := s.skipOperands 2
  .next (s.store (s.eaAbs addr) s.a)

/-- `MOV !abs+X,A` (rule R123). -/
def execMovAbsIdxXA (addr : Address) (s : State) : Result :=
  let s := s.skipOperands 2
  .next (s.store (s.eaAbsX addr) s.a)

/-- `MOV !abs+Y,A` (rule R124). -/
def execMovAbsIdxYA (addr : Address) (s : State) : Result :=
  let s := s.skipOperands 2
  .next (s.store (s.eaAbsY addr) s.a)

/-- `MOV dp,X` (rule R125). -/
def execMovDpX (dp : Byte) (s : State) : Result :=
  let s := s.skipOperands 1
  .next (s.store (s.eaDp dp) s.x)

/-- `MOV !abs,X` (rule R126). -/
def execMovAbsX (addr : Address) (s : State) : Result :=
  let s := s.skipOperands 2
  .next (s.store (s.eaAbs addr) s.x)

/-- `MOV dp,Y` (rule R127). -/
def execMovDpY (dp : Byte) (s : State) : Result :=
  let s := s.skipOperands 1
  .next (s.store (s.eaDp dp) s.y)

/-- `MOV !abs,Y` (rule R128). -/
def execMovAbsY (addr : Address) (s : State) : Result :=
  let s := s.skipOperands 2
  .next (s.store (s.eaAbs addr) s.y)

/-- `MOV dp,#imm` (rule R129). -/
def execMovDpImm (dp imm : Byte) (s : State) : Result :=
  let s := s.skipOperands 2
  .next (s.store (s.eaDp dp) imm)

end Sys2Proof.Machine
end

