-- ==== Sys2Proof/Machine/Dispatch.lean ====
section
/-! DEFINITION. `execute(op)` of rule R80: one arm per instruction, one direct call of its meaning. -/

namespace Sys2Proof.Machine

/-- The execute phase of one instruction (rules R80 step 3, R81): the state it takes has the cost committed and `pc` past
the opcode byte. -/
def exec (i : Instr) (s : State) : Host.Outcome State Fault Refusal :=
  match i with
  | .movAImm imm => Sys2Proof.Machine.execMovAImm imm s
  | .movADp dp => Sys2Proof.Machine.execMovADp dp s
  | .movAAbs addr => Sys2Proof.Machine.execMovAAbs addr s
  | .movAAbsIdxX addr => Sys2Proof.Machine.execMovAAbsIdxX addr s
  | .movAAbsIdxY addr => Sys2Proof.Machine.execMovAAbsIdxY addr s
  | .movXImm imm => Sys2Proof.Machine.execMovXImm imm s
  | .movXDp dp => Sys2Proof.Machine.execMovXDp dp s
  | .movXAbs addr => Sys2Proof.Machine.execMovXAbs addr s
  | .movYImm imm => Sys2Proof.Machine.execMovYImm imm s
  | .movYDp dp => Sys2Proof.Machine.execMovYDp dp s
  | .movYAbs addr => Sys2Proof.Machine.execMovYAbs addr s
  | .movDpA dp => Sys2Proof.Machine.execMovDpA dp s
  | .movAbsA addr => Sys2Proof.Machine.execMovAbsA addr s
  | .movAbsIdxXA addr => Sys2Proof.Machine.execMovAbsIdxXA addr s
  | .movAbsIdxYA addr => Sys2Proof.Machine.execMovAbsIdxYA addr s
  | .movDpX dp => Sys2Proof.Machine.execMovDpX dp s
  | .movAbsX addr => Sys2Proof.Machine.execMovAbsX addr s
  | .movDpY dp => Sys2Proof.Machine.execMovDpY dp s
  | .movAbsY addr => Sys2Proof.Machine.execMovAbsY addr s
  | .movDpImm dp imm => Sys2Proof.Machine.execMovDpImm dp imm s
  | .orAImm imm => Sys2Proof.Machine.execOrAImm imm s
  | .orADp dp => Sys2Proof.Machine.execOrADp dp s
  | .orAAbs addr => Sys2Proof.Machine.execOrAAbs addr s
  | .orAAbsIdxX addr => Sys2Proof.Machine.execOrAAbsIdxX addr s
  | .orAAbsIdxY addr => Sys2Proof.Machine.execOrAAbsIdxY addr s
  | .andAImm imm => Sys2Proof.Machine.execAndAImm imm s
  | .andADp dp => Sys2Proof.Machine.execAndADp dp s
  | .andAAbs addr => Sys2Proof.Machine.execAndAAbs addr s
  | .andAAbsIdxX addr => Sys2Proof.Machine.execAndAAbsIdxX addr s
  | .andAAbsIdxY addr => Sys2Proof.Machine.execAndAAbsIdxY addr s
  | .eorAImm imm => Sys2Proof.Machine.execEorAImm imm s
  | .eorADp dp => Sys2Proof.Machine.execEorADp dp s
  | .eorAAbs addr => Sys2Proof.Machine.execEorAAbs addr s
  | .eorAAbsIdxX addr => Sys2Proof.Machine.execEorAAbsIdxX addr s
  | .eorAAbsIdxY addr => Sys2Proof.Machine.execEorAAbsIdxY addr s
  | .incA => Sys2Proof.Machine.execIncA s
  | .incX => Sys2Proof.Machine.execIncX s
  | .incY => Sys2Proof.Machine.execIncY s
  | .incDp dp => Sys2Proof.Machine.execIncDp dp s
  | .incAbs addr => Sys2Proof.Machine.execIncAbs addr s
  | .decA => Sys2Proof.Machine.execDecA s
  | .decX => Sys2Proof.Machine.execDecX s
  | .decY => Sys2Proof.Machine.execDecY s
  | .decDp dp => Sys2Proof.Machine.execDecDp dp s
  | .decAbs addr => Sys2Proof.Machine.execDecAbs addr s
  | .aslA => Sys2Proof.Machine.execAslA s
  | .aslDp dp => Sys2Proof.Machine.execAslDp dp s
  | .aslAbs addr => Sys2Proof.Machine.execAslAbs addr s
  | .lsrA => Sys2Proof.Machine.execLsrA s
  | .lsrDp dp => Sys2Proof.Machine.execLsrDp dp s
  | .lsrAbs addr => Sys2Proof.Machine.execLsrAbs addr s
  | .rolA => Sys2Proof.Machine.execRolA s
  | .rolDp dp => Sys2Proof.Machine.execRolDp dp s
  | .rolAbs addr => Sys2Proof.Machine.execRolAbs addr s
  | .rorA => Sys2Proof.Machine.execRorA s
  | .rorDp dp => Sys2Proof.Machine.execRorDp dp s
  | .rorAbs addr => Sys2Proof.Machine.execRorAbs addr s
  | .bra rel => Sys2Proof.Machine.execBra rel s
  | .bpl rel => Sys2Proof.Machine.execBpl rel s
  | .bmi rel => Sys2Proof.Machine.execBmi rel s
  | .bvc rel => Sys2Proof.Machine.execBvc rel s
  | .bvs rel => Sys2Proof.Machine.execBvs rel s
  | .bcc rel => Sys2Proof.Machine.execBcc rel s
  | .bcs rel => Sys2Proof.Machine.execBcs rel s
  | .bne rel => Sys2Proof.Machine.execBne rel s
  | .beq rel => Sys2Proof.Machine.execBeq rel s

end Sys2Proof.Machine
end

