-- ==== Sys2Proof/Machine/Execute.lean ====
section
/-! DEFINITION. One instruction as a function of the state (rule R81), for any cost table. -/

namespace Sys2Proof.Machine

/-- Step 3 of rule R80 on a decoded instruction: `cycles <- cycles + cost; pc <- (pc + 1) & 0xFFFF; execute(op)`. -/
def perform (T : Config.CostTable) (i : Instr) (s : State) : Result := exec i (s.commit (T i))

/-- `step` of rule R81, for a cost table: on an assigned opcode at `pc`, step 3 of rule R80; on an unassigned one "the fault
of rule R220 is the outcome". It does not depend on a budget. -/
def stepWith (T : Config.CostTable) (s : State) : Result :=
  match s.peek with
  | .ok (i, _) => perform T i s
  | .error _ => raiseUnimplemented s

end Sys2Proof.Machine
end

