-- ==== Sys2Proof/Machine/Step.lean ====
section
/-! DEFINITION. The step of the machine, with `base_cycle_cost` at its default, and where the next instruction is fetched. -/

namespace Sys2Proof.Machine

/-- One instruction (rule R81), with the parameter `base_cycle_cost` at its default value (rules R3, R248). -/
def step (s : State) : Host.Outcome State Fault Refusal := stepWith defaultCycleCost s

/-- The state with an instruction stored where `step` fetches: its bytes at `pc`, `pc + 1` and `pc + 2` (rule R60), the bits
above `nbits` zero. The host may write any cell between runs (rule R245), so this is what a host does. -/
def State.withFetchWord (s : State) (nbits w : Nat) : State := s.writeBytes s.pc (tableBytes nbits w)

end Sys2Proof.Machine
end

