-- ==== Sys2Proof/Machine/Run.lean ====
section
/-! DEFINITION. The execution loop `run(cycle_budget)` (rules R80 to R84), its trace hook (rule R86), and the order of an
instruction's memory accesses (rule R54). -/

namespace Sys2Proof.Machine

/-- What `run` returns to the host (rule R84). `refused` is not an outcome of the spec: it stands for a cost table that
breaks rule R3, for which the loop need not end, and an admissible table never meets it. -/
inductive RunOutcome where
  | budgetStop
  | fault (f : Fault)
  | refused (r : Refusal)
  deriving DecidableEq, Repr

/-- What the checks at an instruction boundary decide. -/
inductive Verdict where
  | stop (o : RunOutcome)
  | execute (i : Instr)
  deriving DecidableEq, Repr

/-- Step 2 of rule R80, in the order of rule R223: first the opcode at `pc` is decoded, and an unassigned one faults
whatever the budget; only then is its table cost compared with the target. The test uses the table cost always (rule
R82). -/
def check (T : Config.CostTable) (target : Nat) (s : State) : Verdict :=
  match s.peek with
  | .error _ => .stop (.fault s.unimplemented)
  | .ok (i, _) => if s.cycles + T i > target then .stop .budgetStop else .execute i

/-- Steps 2 to 4 of rule R80, with a bound on the number of rounds. -/
def runLoop (T : Config.CostTable) (target : Nat) : Nat → State → RunOutcome × State
  | 0, s => (.refused .inadmissibleCostTable, s)
  | rounds + 1, s =>
    match check T target s with
    | .stop o => (o, s)
    | .execute i =>
      match perform T i s with
      | .next t => runLoop T target rounds t
      | .fault f => (.fault f, s)
      | .refused r => (.refused r, s)

/-- `run(cycle_budget)` (rule R80). "At most `cycle_budget` instructions execute" (rule R84), so `cycle_budget + 1` rounds
always reach the outcome. -/
def run (T : Config.CostTable) (budget : Nat) (s : State) : RunOutcome × State :=
  runLoop T (s.cycles + budget) (budget + 1) s

/-! ### The trace hook (rule R86) -/

/-- The trace record of rule R86. -/
structure TraceRecord where
  pc : Address
  opcode : Byte
  operandByte : Byte
  a : Byte
  x : Byte
  y : Byte
  sp : Byte
  statusByte : Byte
  deriving DecidableEq, Repr

/-- The record of the instruction at `pc`, sampled before it executes; `operand_byte` is the byte at `pc + 1` "whatever the
instruction's length" (rule R86). -/
def State.traceRecord (s : State) : TraceRecord where
  pc := s.pc
  opcode := s.readByte s.pc
  operandByte := s.readByte (s.pc + 1#16)
  a := s.a
  x := s.x
  y := s.y
  sp := s.sp
  statusByte := s.statusByte

/-- The loop of rule R80 with the trace hook: "one record is emitted per executed instruction", none for a faulting
opcode (decision D20). -/
def tracedLoop (T : Config.CostTable) (target : Nat) : Nat → State → List TraceRecord × RunOutcome × State
  | 0, s => ([], .refused .inadmissibleCostTable, s)
  | rounds + 1, s =>
    match check T target s with
    | .stop o => ([], o, s)
    | .execute i =>
      match perform T i s with
      | .next t =>
        let (records, result) := tracedLoop T target rounds t
        (s.traceRecord :: records, result)
      | .fault f => ([], .fault f, s)
      | .refused r => ([], .refused r, s)

/-- `run(cycle_budget)` with the trace hook: the records, in the order of execution, and what `run` answers. -/
def runTraced (T : Config.CostTable) (budget : Nat) (s : State) : List TraceRecord × RunOutcome × State :=
  tracedLoop T (s.cycles + budget) (budget + 1) s

/-- How many instructions a run executes: one record each (rule R86). -/
def executed (T : Config.CostTable) (budget : Nat) (s : State) : Nat := (runTraced T budget s).1.length

/-! ### The memory accesses of one instruction (rules R46, R54) -/

/-- One memory access, one byte wide (rule R46). -/
inductive Access where
  | fetch (addr : Address)
  | read (addr : Address)
  | write (addr : Address)
  deriving DecidableEq, Repr

/-- The addresses of a run of fetches from an address on, ascending, each reduced to 16 bits (rule R60). -/
def fetchesFrom (addr : Address) : Nat → List Access
  | 0 => []
  | n + 1 => .fetch addr :: fetchesFrom (addr + 1#16) n

/-- The accesses of the instruction at `pc`, in the order of rule R54: the opcode byte, the operand bytes in ascending
order, the data read, the data write. -/
def accesses (i : Instr) (s : State) : List Access :=
  fetchesFrom s.pc i.length ++
    ((loadAddress i s).map Access.read).toList ++ ((storeAddress i s).map Access.write).toList

end Sys2Proof.Machine
end

