-- ==== Sys2Proof/Machine/Fsm.lean ====
section
/-! DEFINITION. The dispatch FSM of rule R85: the loop of rule R80 as three states of a sequencing machine. -/

namespace Sys2Proof.Machine

/-- The FSM states of rule R85. `target` is "a latch that lives from the start of a `run` to its return; it is not
architectural state", so it stands here and not in `State`. -/
inductive Phase where
  | idle
  | check (target : Nat)
  | exec (target : Nat) (i : Instr)
  deriving DecidableEq, Repr

/-- The FSM beside the architectural state. -/
structure Fsm where
  phase : Phase
  state : State
  deriving DecidableEq, Repr

/-- `run(b)` in `IDLE`: latch `target <- cycles + b` and leave to `CHECK` (rule R85). -/
def Fsm.start (budget : Nat) (s : State) : Fsm := ⟨.check (s.cycles + budget), s⟩

/-- One transition (rule R85), and the outcome that `run` returns when the transition leads to `IDLE`. -/
def Fsm.next (T : Config.CostTable) (f : Fsm) : Fsm × Option RunOutcome :=
  match f.phase with
  | .idle => (f, none)
  | .check target =>
    match Machine.check T target f.state with
    | .stop o => (⟨.idle, f.state⟩, some o)
    | .execute i => (⟨.exec target i, f.state⟩, none)
  | .exec target i =>
    match perform T i f.state with
    | .next t => (⟨.check target, t⟩, none)
    | .fault e => (⟨.idle, f.state⟩, some (.fault e))
    | .refused r => (⟨.idle, f.state⟩, some (.refused r))

/-- A number of transitions, stopping at the first that returns an outcome. -/
def Fsm.advance (T : Config.CostTable) : Nat → Fsm → Fsm × Option RunOutcome
  | 0, f => (f, none)
  | n + 1, f =>
    match f.next T with
    | (g, some o) => (g, some o)
    | (g, none) => Fsm.advance T n g

end Sys2Proof.Machine
end

