-- ==== Sys2Proof/Machine/Session.lean ====
section
/-! DEFINITION. Construction (this hardware's reset), the snapshot, and the five host transactions (rules R25, R26, R240 to
R245). -/

namespace Sys2Proof.Machine

/-- The register view `{pc, sp, a, x, y, status_byte}` (rules R25, R26). -/
structure Registers where
  pc : Address
  sp : Byte
  a : Byte
  x : Byte
  y : Byte
  status : Byte
  deriving DecidableEq, Repr

/-- The argument of `construct`: the registers and "exactly 65536 bytes" of memory (rules R25, R242). An ill-formed
snapshot cannot be written down (spec/93_implementation_defined.md U8). -/
structure Snapshot where
  registers : Registers
  memory : Vector Byte 65536
  deriving DecidableEq

/-- The assignments of rule R25, for a memory already in the model's form. -/
def constructWith (r : Registers) (m : Memory) : State where
  pc := r.pc
  sp := r.sp
  a := r.a
  x := r.x
  y := r.y
  pageBase := pageBaseOf r.status
  nzAccumulator := nzAccumulatorOf r.status
  statusResidual := statusResidualOf r.status
  memory := m
  cycles := 0

/-- `construct(snapshot)` (rules R25, R240): "every state element takes the value the snapshot gives it (`cycles` takes
0)". It has no failure mode. -/
def construct (snap : Snapshot) : State :=
  constructWith snap.registers (Memory.ofBytes 0 snap.memory.toList)

/-- `snapshot()` (rule R26): the externally visible register view, a pure read. -/
def State.snapshot (s : State) : Registers where
  pc := s.pc
  sp := s.sp
  a := s.a
  x := s.x
  y := s.y
  status := s.statusByte

/-- The five host transactions (rule R243). -/
inductive HostCall where
  | construct (snap : Snapshot)
  | run (budget : Nat)
  | snapshot
  | memRead (addr : Address)
  | memWrite (addr : Address) (v : Byte)
  deriving DecidableEq

/-- What a transaction outputs (rule R243). The elapsed cycles of a `run` are `cycles_after - cycles_before` (rule R84); how
they are delivered "is not fixed" (rule R243), and here they come with the outcome (notes/assumptions/8.md). -/
inductive HostReply where
  | done
  | ran (outcome : RunOutcome) (elapsed : Nat)
  | view (r : Registers)
  | byte (v : Byte)
  deriving DecidableEq, Repr

/-- One host transaction, accepted in `IDLE` (rules R243 to R245). `none` is the core before its first `construct`: there
every transaction but `construct` is refused (rule R241). `construct` "replaces the whole state" whenever it comes. -/
def transact (T : Config.CostTable) (call : HostCall) (session : Option State) :
    Host.Outcome (State × HostReply) Fault Refusal :=
  match call, session with
  | .construct snap, _ => .next (Machine.construct snap, .done)
  | .run budget, some s =>
    let (outcome, t) := Machine.run T budget s
    .next (t, .ran outcome (t.cycles - s.cycles))
  | .snapshot, some s => .next (s, .view s.snapshot)
  | .memRead addr, some s => .next (s, .byte (s.readByte addr))
  | .memWrite addr v, some s => .next (s.writeByte addr v, .done)
  | .run _, none | .snapshot, none | .memRead _, none | .memWrite _ _, none => .refused .notConstructed

end Sys2Proof.Machine
end

