-- ==== Sys2Proof/Safety.lean ====
section
/-! DEFINITION. What counts as a good state and a safe run, in the terms the statements use. -/

namespace Sys2Proof.Machine

/-- The values of `nz_accumulator` that `construct` or `SetNZ` can leave (rules R16, R28; spec/93_implementation_defined.md
U10): bit 8 set only as 0x100 or 0x101, the two values that rule R25 makes of a status byte with N = 1. -/
abbrev nzLegal (nz : NineBits) : Prop := nz.getLsbD 8 = true → nz = 0x100#9 ∨ nz = 0x101#9

/-- The invariants of rule R28 that the types do not already say: the memory in canonical form, `page_base` one of its two
values, `nz_accumulator` one of those it can take, and bits 7, 5, 1 of `status_residual` zero. -/
abbrev State.Inv (s : State) : Prop :=
  s.memory.wf = true ∧ (s.pageBase = 0x000#9 ∨ s.pageBase = 0x100#9) ∧ nzLegal s.nzAccumulator ∧
    s.statusResidual &&& 0xA2#8 = 0x00#8

/-- Two states that differ only in `nz_accumulator` and agree on N and Z (rule R29). -/
abbrev State.SameButNZ (s t : State) : Prop :=
  t = { s with nzAccumulator := t.nzAccumulator } ∧ s.flagN = t.flagN ∧ s.flagZ = t.flagZ

/-- Two states that agree on everything but the memory and read the same at every address of a list. -/
abbrev State.AgreeOn (addrs : List Address) (s t : State) : Prop :=
  t = { s with memory := t.memory } ∧ ∀ a ∈ addrs, t.readByte a = s.readByte a

/-- A number of steps, all with a next state. -/
def stepsWith (T : Config.CostTable) : Nat → State → Option State
  | 0, s => some s
  | n + 1, s =>
    match stepWith T s with
    | .next t => stepsWith T n t
    | .fault _ => none
    | .refused _ => none

/-- A run is safe when it ends for want of budget: no unassigned opcode was reached (rule R84). -/
abbrev SafeRun (T : Config.CostTable) (budget : Nat) (s : State) : Prop := (run T budget s).1 = .budgetStop

end Sys2Proof.Machine
end

