-- ==== Sys2Proof/Certificates/Slice0/Obligations.lean ====
section
/-! DEFINITION. The statements for the provers. Each docstring names the rule of spec/ it formalises. Statements about
cycles are made for every admissible cost table, never for the numbers of the default one, but for the two that are about
the default table itself. -/

open Sys2Proof Sys2Proof.Machine

/-! ### Encoding -/

/-- Words written out bit by bit from the table of rule R63 and the formats of rules R61 and R62, one of each format at
least and one of each class, decode to the instruction they stand for; a few unassigned bytes do not decode. The five
numbers 0xE8, 0xE4, 0x4B, 0x2F, 0xF0 are the source's; the others the spec marks as general knowledge (decision D2). -/
def Obligations.WrittenOutWordsDecode : Prop :=
  decode [0b11101000#8, 0x00#8] = .ok (.movAImm 0x00#8, []) ∧
  decode [0b11100100#8, 0x10#8] = .ok (.movADp 0x10#8, []) ∧
  decode [0b11110101#8, 0xF0#8, 0xFF#8] = .ok (.movAAbsIdxX 0xFFF0#16, []) ∧
  decode [0b10001111#8, 0xAA#8, 0x30#8] = .ok (.movDpImm 0x30#8 0xAA#8, []) ∧
  decode [0b00000101#8, 0x34#8, 0x12#8] = .ok (.orAAbs 0x1234#16, []) ∧
  decode [0b11111100#8] = .ok (.incY, []) ∧
  decode [0b01001011#8, 0x10#8] = .ok (.lsrDp 0x10#8, []) ∧
  decode [0b00101111#8, 0xF6#8] = .ok (.bra 0xF6#8, []) ∧
  decode [0b11110000#8, 0x05#8] = .ok (.beq 0x05#8, []) ∧
  decode [0b00000000#8, 0x00#8, 0x00#8] = .error (.unassignedOpcode 0x00#8) ∧
  decode [0b11111111#8, 0x00#8, 0x00#8] = .error (.unassignedOpcode 0xFF#8)

/-- Decoding the words of any instruction, with any bytes after them, gives back the instruction with every operand, and
those bytes (rules R60 to R63). -/
def Obligations.DecodeOfEncodeIsTheInstruction : Prop :=
  ∀ (i : Instr) (rest : List Byte), decode (encode i ++ rest) = .ok (i, rest)

/-- A byte sequence that decodes to an instruction begins with the words of that instruction: no two encodings of one
instruction, no byte dropped (rule R67: "each of the 66 opcodes has one spelling and each spelling one opcode"). -/
def Obligations.EncodeOfDecodeIsTheBytes : Prop :=
  ∀ (bytes : List Byte) (i : Instr) (rest : List Byte), decode bytes = .ok (i, rest) → bytes = encode i ++ rest

/-- The unassigned opcodes are exactly the 190 bytes of the list of rule R64, and a byte outside it starts an instruction
whatever two bytes follow. The list is the complement of rule R63's map (decisions D1, D2). -/
def Obligations.UnassignedOpcodesAreTheListed : Prop :=
  ∀ op : Byte,
    (assigned op = false ↔
      ∃ r ∈ [(0x00, 0x03), (0x06, 0x07), (0x09, 0x0A), (0x0D, 0x0F), (0x11, 0x14), (0x17, 0x1B), (0x1E, 0x1F),
             (0x20, 0x23), (0x26, 0x27), (0x29, 0x2A), (0x2D, 0x2E), (0x31, 0x34), (0x37, 0x3B), (0x3E, 0x3F),
             (0x40, 0x43), (0x46, 0x47), (0x49, 0x4A), (0x4D, 0x4F), (0x51, 0x54), (0x57, 0x5B), (0x5D, 0x5F),
             (0x60, 0x6A), (0x6D, 0x6F), (0x71, 0x7B), (0x7D, 0x7F), (0x80, 0x8A), (0x8E, 0x8E), (0x91, 0x9B),
             (0x9D, 0x9F), (0xA0, 0xAA), (0xAD, 0xAF), (0xB1, 0xBB), (0xBD, 0xBF)] ++
            [(0xC0, 0xC3), (0xC6, 0xC8), (0xCA, 0xCA), (0xCE, 0xCF), (0xD1, 0xD4), (0xD7, 0xD7), (0xD9, 0xDB),
             (0xDD, 0xDF), (0xE0, 0xE3), (0xE6, 0xE7), (0xEA, 0xEA), (0xED, 0xEF), (0xF1, 0xF4), (0xF7, 0xF7),
             (0xF9, 0xFB), (0xFD, 0xFF)], r.1 ≤ op.toNat ∧ op.toNat ≤ r.2) ∧
    (assigned op = false → ∀ rest, decode (op :: rest) = .error (.unassignedOpcode op)) ∧
    (assigned op = true → ∀ b₁ b₂ : Byte, ∃ i rest, decode [op, b₁, b₂] = .ok (i, rest) ∧ i.opcode = op)

/-- The length of an instruction is told from its opcode byte and is that of its format, 1 to 3 (rules R5, R60, R61); it is
not defined on the unassigned opcodes (rule R65). -/
def Obligations.LengthIsFixedByTheOpcode : Prop :=
  (∀ i : Instr, instructionLength i.opcode = some i.length ∧ i.length = i.format.length ∧ 1 ≤ i.length ∧ i.length ≤ 3) ∧
  (∀ op : Byte, assigned op = false → instructionLength op = none)

/-! ### State, flags, construction -/

/-- `status_byte()` is the four lines of rule R20, the flag reads are those of rule R22, and in a state with a legal
`page_base` (rule R15) the byte's bits 7, 6, 5, 1 and 0 are what the reads of N, V, P, Z and C give. -/
def Obligations.StatusByteIsDerivedFromTheFlagSources : Prop :=
  (∀ s : State,
    s.statusByte =
      ((s.nzAccumulator ||| (s.nzAccumulator >>> 1)) &&& 0x080#9).setWidth 8 |||
      (if s.nzAccumulator &&& 0x0FF#9 = 0#9 then 0x02#8 else 0x00#8) |||
      (s.pageBase >>> 3).setWidth 8 ||| (s.statusResidual &&& 0x5D#8)) ∧
  (∀ s : State,
    s.flagN = (s.nzAccumulator.getLsbD 7 || s.nzAccumulator.getLsbD 8) ∧
    s.flagZ = decide (s.nzAccumulator &&& 0x0FF#9 = 0#9) ∧
    s.flagC = s.statusResidual.getLsbD 0 ∧ s.flagV = s.statusResidual.getLsbD 6 ∧
    s.flagP = decide (s.pageBase = 0x100#9)) ∧
  (∀ s : State, s.pageBase = 0x000#9 ∨ s.pageBase = 0x100#9 →
    s.statusByte.getLsbD 7 = s.flagN ∧ s.statusByte.getLsbD 6 = s.flagV ∧ s.statusByte.getLsbD 5 = s.flagP ∧
    s.statusByte.getLsbD 1 = s.flagZ ∧ s.statusByte.getLsbD 0 = s.flagC)

/-- The layout of the status byte, N V P B H I Z C from bit 7 to bit 0 (rule R19; the order is the spec's reading of its
source, decision D11): a state that `construct` made reports each bit of the snapshot's status byte as the flag of that
name, and `status_byte()` puts the eight together again. -/
def Obligations.StatusByteBitsAreTheFlagsInOrder : Prop :=
  ∀ snap : Snapshot,
    let s := construct snap
    let v := snap.registers.status
    [s.flagN, s.flagV, s.flagP, s.flagB, s.flagH, s.flagI, s.flagZ, s.flagC] =
      [v.getLsbD 7, v.getLsbD 6, v.getLsbD 5, v.getLsbD 4, v.getLsbD 3, v.getLsbD 2, v.getLsbD 1, v.getLsbD 0] ∧
    s.statusByte = v

/-- `SetNZ(v)` stores the zero-extended byte and nothing else; then Z says whether the byte is 0, N whether it is at least
0x80, and they are never both set (rule R21). -/
def Obligations.SetNZStoresTheByteAndNothingElse : Prop :=
  ∀ (s : State) (v : Byte),
    s.setNZ v = { s with nzAccumulator := v.setWidth 9 } ∧ (s.setNZ v).nzAccumulator.getLsbD 8 = false ∧
    (s.setNZ v).flagZ = decide (v = 0x00#8) ∧ (s.setNZ v).flagN = decide (0x80 ≤ v.toNat) ∧
    ¬((s.setNZ v).flagN = true ∧ (s.setNZ v).flagZ = true)

/-- `SetC(b)` writes `status_residual <- (status_residual & 0x5C) | b`; in a state whose residual bits 7, 5, 1 are 0 only
bit 0 changes (rules R17, R23). -/
def Obligations.SetCChangesTheCarryAlone : Prop :=
  ∀ (s : State) (b : Bool),
    s.setC b = { s with statusResidual := (s.statusResidual &&& 0x5C#8) ||| (if b then 1#8 else 0#8) } ∧
    (s.setC b).flagC = b ∧
    (s.statusResidual &&& 0xA2#8 = 0x00#8 →
      ∀ n, n ≠ 0 → (s.setC b).statusResidual.getLsbD n = s.statusResidual.getLsbD n)

/-- `construct(snapshot)` gives every state element the value of rule R25, with the four cases of `nz_accumulator`, and
every memory cell the byte of the image; N and Z read back as the status byte's bits 7 and 1. `cycles` 0 is the spec's
own decision D6. -/
def Obligations.ConstructAssignsEveryElement : Prop :=
  ∀ snap : Snapshot,
    let r := snap.registers
    let s := construct snap
    s.pc = r.pc ∧ s.sp = r.sp ∧ s.a = r.a ∧ s.x = r.x ∧ s.y = r.y ∧ s.cycles = 0 ∧
    s.pageBase = (if r.status.getLsbD 5 then 0x100#9 else 0x000#9) ∧
    s.statusResidual = r.status &&& 0x5D#8 ∧
    s.nzAccumulator =
      (match r.status.getLsbD 7, r.status.getLsbD 1 with
       | false, false => 0x001#9
       | false, true => 0x000#9
       | true, false => 0x101#9
       | true, true => 0x100#9) ∧
    s.flagN = r.status.getLsbD 7 ∧ s.flagZ = r.status.getLsbD 1 ∧
    (∀ a : Address, s.readByte a = snap.memory[a.toNat]'(a.isLt))

/-- `snapshot()` right after `construct(snapshot)` gives back the snapshot's registers, for all 256 status bytes
(rule R27). -/
def Obligations.SnapshotAfterConstructIsTheInput : Prop :=
  ∀ snap : Snapshot, (construct snap).snapshot = snap.registers

/-- The state after reset is the model's own choice of snapshot (notes/assumptions/1.md): all registers 0, no flag set, every
memory byte 0, `cycles` 0. -/
def Obligations.ResetIsTheAllZeroConstruction : Prop :=
  State.reset.snapshot = ⟨0#16, 0#8, 0#8, 0#8, 0#8, 0#8⟩ ∧ State.reset.cycles = 0 ∧
  (∀ a : Address, State.reset.readByte a = 0#8) ∧
  State.reset = construct ⟨⟨0#16, 0#8, 0#8, 0#8, 0#8, 0#8⟩, Vector.replicate 65536 0#8⟩

/-! ### The invariants of rule R28 -/

/-- The invariants hold in the state after reset. -/
def Obligations.ResetMeetsTheInvariants : Prop := State.reset.Inv

/-- `construct` establishes the invariants, whatever the snapshot (rule R28). -/
def Obligations.ConstructEstablishesTheInvariants : Prop := ∀ snap : Snapshot, (construct snap).Inv

/-- Every step keeps the invariants, from every state that meets them, with every cost table (rule R28). -/
def Obligations.EveryStepKeepsTheInvariants : Prop :=
  (∀ s t : State, s.Inv → step s = .next t → t.Inv) ∧
  (∀ (T : Config.CostTable) (s t : State), s.Inv → stepWith T s = .next t → t.Inv)

/-- Every host transaction keeps the invariants; `construct` does so from no state at all (rules R28, R243). -/
def Obligations.EveryTransactionKeepsTheInvariants : Prop :=
  ∀ (T : Config.CostTable) (call : HostCall) (session : Option State) (t : State) (reply : HostReply),
    (∀ s, session = some s → s.Inv) → transact T call session = .next (t, reply) → t.Inv

/-- Bit 8 of `nz_accumulator` never appears by a step: a step leaves `nz_accumulator` alone or leaves bit 8 clear
(rules R16, R28). -/
def Obligations.NoStepSetsBitEightOfTheAccumulator : Prop :=
  ∀ (T : Config.CostTable) (s t : State), stepWith T s = .next t →
    t.nzAccumulator = s.nzAccumulator ∨ t.nzAccumulator.getLsbD 8 = false

/-! ### Memory and addressing -/

/-- `MemRead` after `MemWrite`: the byte written at that address, every other address as before, no other element of the
state changed (rules R41, R42). -/
def Obligations.MemWriteChangesOneCell : Prop :=
  ∀ (s : State) (addr : Address) (v : Byte),
    (s.writeByte addr v).readByte addr = v ∧
    (∀ b, b ≠ addr → (s.writeByte addr v).readByte b = s.readByte b) ∧
    s.writeByte addr v = { s with memory := (s.writeByte addr v).memory }

/-- Two memories in canonical form that read the same at every address are the same data, and a write keeps the canonical
form (rule R18; the form is the model's, notes/assumptions/2.md). -/
def Obligations.EqualReadsAreEqualMemories : Prop :=
  (∀ m n : Memory, m.wf = true → n.wf = true → (∀ a : Address, m.read a = n.read a) → m = n) ∧
  (∀ (m : Memory) (a : Address) (v : Byte), m.wf = true → (m.write a v).wf = true)

/-- The memory forms of the addressing-mode multiplexer (rules R89 to R92): direct page adds `page_base` and cannot wrap, so
it stays in the page that P selects; absolute is the operand, little-endian; the indexed forms add the unsigned index
modulo 0x10000. None of them reads or writes anything else. -/
def Obligations.EffectiveAddressesOfTheOperandForms : Prop :=
  (∀ (s : State) (d : Byte), s.pageBase = 0x000#9 ∨ s.pageBase = 0x100#9 →
    (s.eaDp d).toNat = d.toNat + (if s.flagP then 0x100 else 0) ∧ (s.eaDp d).toNat = d.toNat + s.pageBase.toNat) ∧
  (∀ (s : State) (lo hi : Byte), (s.eaAbs (littleEndian lo hi)).toNat = lo.toNat + 256 * hi.toNat) ∧
  (∀ (s : State) (lo hi : Byte),
    (s.eaAbsX (littleEndian lo hi)).toNat = (lo.toNat + 256 * hi.toNat + s.x.toNat) % 0x10000) ∧
  (∀ (s : State) (lo hi : Byte),
    (s.eaAbsY (littleEndian lo hi)).toNat = (lo.toNat + 256 * hi.toNat + s.y.toNat) % 0x10000)

/-! ### The instructions, family by family. `exec` starts past the opcode byte (rule R81), so an instruction with n operand
bytes ends with `pc` n further. Everything a record update does not name is unchanged. -/

/-- The eleven Load instructions (rule R100): the operand byte or the byte at the effective address goes to the destination
register and to `SetNZ`; nothing else is written. They always complete. -/
def Obligations.LoadInstructions : Prop :=
  (∀ (v : Byte) (s : State), exec (.movAImm v) s = .next { s with pc := s.pc + 1#16, a := v, nzAccumulator := v.setWidth 9 }) ∧
  (∀ (d : Byte) (s : State), exec (.movADp d) s = .next { s with
    pc := s.pc + 1#16, a := s.readByte (s.eaDp d), nzAccumulator := (s.readByte (s.eaDp d)).setWidth 9 }) ∧
  (∀ (w : Address) (s : State), exec (.movAAbs w) s = .next { s with
    pc := s.pc + 2#16, a := s.readByte (s.eaAbs w), nzAccumulator := (s.readByte (s.eaAbs w)).setWidth 9 }) ∧
  (∀ (w : Address) (s : State), exec (.movAAbsIdxX w) s = .next { s with
    pc := s.pc + 2#16, a := s.readByte (s.eaAbsX w), nzAccumulator := (s.readByte (s.eaAbsX w)).setWidth 9 }) ∧
  (∀ (w : Address) (s : State), exec (.movAAbsIdxY w) s = .next { s with
    pc := s.pc + 2#16, a := s.readByte (s.eaAbsY w), nzAccumulator := (s.readByte (s.eaAbsY w)).setWidth 9 }) ∧
  (∀ (v : Byte) (s : State), exec (.movXImm v) s = .next { s with pc := s.pc + 1#16, x := v, nzAccumulator := v.setWidth 9 }) ∧
  (∀ (d : Byte) (s : State), exec (.movXDp d) s = .next { s with
    pc := s.pc + 1#16, x := s.readByte (s.eaDp d), nzAccumulator := (s.readByte (s.eaDp d)).setWidth 9 }) ∧
  (∀ (w : Address) (s : State), exec (.movXAbs w) s = .next { s with
    pc := s.pc + 2#16, x := s.readByte (s.eaAbs w), nzAccumulator := (s.readByte (s.eaAbs w)).setWidth 9 }) ∧
  (∀ (v : Byte) (s : State), exec (.movYImm v) s = .next { s with pc := s.pc + 1#16, y := v, nzAccumulator := v.setWidth 9 }) ∧
  (∀ (d : Byte) (s : State), exec (.movYDp d) s = .next { s with
    pc := s.pc + 1#16, y := s.readByte (s.eaDp d), nzAccumulator := (s.readByte (s.eaDp d)).setWidth 9 }) ∧
  (∀ (w : Address) (s : State), exec (.movYAbs w) s = .next { s with
    pc := s.pc + 2#16, y := s.readByte (s.eaAbs w), nzAccumulator := (s.readByte (s.eaAbs w)).setWidth 9 })

/-- The nine Store instructions (rule R120): one `MemWrite` of the source register or of the immediate at the effective
address, no flag and no register written, no data read. They always complete. -/
def Obligations.StoreInstructions : Prop :=
  (∀ (d : Byte) (s : State), exec (.movDpA d) s = .next { s with pc := s.pc + 1#16, memory := s.memory.write (s.eaDp d) s.a }) ∧
  (∀ (w : Address) (s : State), exec (.movAbsA w) s = .next { s with
    pc := s.pc + 2#16, memory := s.memory.write (s.eaAbs w) s.a }) ∧
  (∀ (w : Address) (s : State), exec (.movAbsIdxXA w) s = .next { s with
    pc := s.pc + 2#16, memory := s.memory.write (s.eaAbsX w) s.a }) ∧
  (∀ (w : Address) (s : State), exec (.movAbsIdxYA w) s = .next { s with
    pc := s.pc + 2#16, memory := s.memory.write (s.eaAbsY w) s.a }) ∧
  (∀ (d : Byte) (s : State), exec (.movDpX d) s = .next { s with pc := s.pc + 1#16, memory := s.memory.write (s.eaDp d) s.x }) ∧
  (∀ (w : Address) (s : State), exec (.movAbsX w) s = .next { s with
    pc := s.pc + 2#16, memory := s.memory.write (s.eaAbs w) s.x }) ∧
  (∀ (d : Byte) (s : State), exec (.movDpY d) s = .next { s with pc := s.pc + 1#16, memory := s.memory.write (s.eaDp d) s.y }) ∧
  (∀ (w : Address) (s : State), exec (.movAbsY w) s = .next { s with
    pc := s.pc + 2#16, memory := s.memory.write (s.eaAbs w) s.y }) ∧
  (∀ (d v : Byte) (s : State), exec (.movDpImm d v) s = .next { s with
    pc := s.pc + 2#16, memory := s.memory.write (s.eaDp d) v }) ∧
  (∀ (i : Instr) (s : State), i.cls = .store → loadAddress i s = none)

/-- The fifteen Logical instructions (rule R140): A OP operand goes to A and to `SetNZ`; nothing else is written. They always
complete. -/
def Obligations.LogicalInstructions : Prop :=
  (∀ (m : Byte) (s : State), exec (.orAImm m) s = .next { s with
    pc := s.pc + 1#16, a := s.a ||| m, nzAccumulator := (s.a ||| m).setWidth 9 }) ∧
  (∀ (d : Byte) (s : State), exec (.orADp d) s = .next { s with
    pc := s.pc + 1#16, a := s.a ||| s.readByte (s.eaDp d),
    nzAccumulator := (s.a ||| s.readByte (s.eaDp d)).setWidth 9 }) ∧
  (∀ (w : Address) (s : State), exec (.orAAbs w) s = .next { s with
    pc := s.pc + 2#16, a := s.a ||| s.readByte (s.eaAbs w),
    nzAccumulator := (s.a ||| s.readByte (s.eaAbs w)).setWidth 9 }) ∧
  (∀ (w : Address) (s : State), exec (.orAAbsIdxX w) s = .next { s with
    pc := s.pc + 2#16, a := s.a ||| s.readByte (s.eaAbsX w),
    nzAccumulator := (s.a ||| s.readByte (s.eaAbsX w)).setWidth 9 }) ∧
  (∀ (w : Address) (s : State), exec (.orAAbsIdxY w) s = .next { s with
    pc := s.pc + 2#16, a := s.a ||| s.readByte (s.eaAbsY w),
    nzAccumulator := (s.a ||| s.readByte (s.eaAbsY w)).setWidth 9 }) ∧
  (∀ (m : Byte) (s : State), exec (.andAImm m) s = .next { s with
    pc := s.pc + 1#16, a := s.a &&& m, nzAccumulator := (s.a &&& m).setWidth 9 }) ∧
  (∀ (d : Byte) (s : State), exec (.andADp d) s = .next { s with
    pc := s.pc + 1#16, a := s.a &&& s.readByte (s.eaDp d),
    nzAccumulator := (s.a &&& s.readByte (s.eaDp d)).setWidth 9 }) ∧
  (∀ (w : Address) (s : State), exec (.andAAbs w) s = .next { s with
    pc := s.pc + 2#16, a := s.a &&& s.readByte (s.eaAbs w),
    nzAccumulator := (s.a &&& s.readByte (s.eaAbs w)).setWidth 9 }) ∧
  (∀ (w : Address) (s : State), exec (.andAAbsIdxX w) s = .next { s with
    pc := s.pc + 2#16, a := s.a &&& s.readByte (s.eaAbsX w),
    nzAccumulator := (s.a &&& s.readByte (s.eaAbsX w)).setWidth 9 }) ∧
  (∀ (w : Address) (s : State), exec (.andAAbsIdxY w) s = .next { s with
    pc := s.pc + 2#16, a := s.a &&& s.readByte (s.eaAbsY w),
    nzAccumulator := (s.a &&& s.readByte (s.eaAbsY w)).setWidth 9 }) ∧
  (∀ (m : Byte) (s : State), exec (.eorAImm m) s = .next { s with
    pc := s.pc + 1#16, a := s.a ^^^ m, nzAccumulator := (s.a ^^^ m).setWidth 9 }) ∧
  (∀ (d : Byte) (s : State), exec (.eorADp d) s = .next { s with
    pc := s.pc + 1#16, a := s.a ^^^ s.readByte (s.eaDp d),
    nzAccumulator := (s.a ^^^ s.readByte (s.eaDp d)).setWidth 9 }) ∧
  (∀ (w : Address) (s : State), exec (.eorAAbs w) s = .next { s with
    pc := s.pc + 2#16, a := s.a ^^^ s.readByte (s.eaAbs w),
    nzAccumulator := (s.a ^^^ s.readByte (s.eaAbs w)).setWidth 9 }) ∧
  (∀ (w : Address) (s : State), exec (.eorAAbsIdxX w) s = .next { s with
    pc := s.pc + 2#16, a := s.a ^^^ s.readByte (s.eaAbsX w),
    nzAccumulator := (s.a ^^^ s.readByte (s.eaAbsX w)).setWidth 9 }) ∧
  (∀ (w : Address) (s : State), exec (.eorAAbsIdxY w) s = .next { s with
    pc := s.pc + 2#16, a := s.a ^^^ s.readByte (s.eaAbsY w),
    nzAccumulator := (s.a ^^^ s.readByte (s.eaAbsY w)).setWidth 9 })

/-- The ten Increment and Decrement instructions (rule R160): the operand plus or minus 1 modulo 256 goes back to its
location and to `SetNZ`; no carry, no other flag. They always complete. -/
def Obligations.IncrementAndDecrementInstructions : Prop :=
  (∀ s : State, exec .incA s = .next { s with a := s.a + 1#8, nzAccumulator := (s.a + 1#8).setWidth 9 }) ∧
  (∀ s : State, exec .incX s = .next { s with x := s.x + 1#8, nzAccumulator := (s.x + 1#8).setWidth 9 }) ∧
  (∀ s : State, exec .incY s = .next { s with y := s.y + 1#8, nzAccumulator := (s.y + 1#8).setWidth 9 }) ∧
  (∀ (d : Byte) (s : State), exec (.incDp d) s = .next { s with
    pc := s.pc + 1#16, memory := s.memory.write (s.eaDp d) (s.readByte (s.eaDp d) + 1#8),
    nzAccumulator := (s.readByte (s.eaDp d) + 1#8).setWidth 9 }) ∧
  (∀ (w : Address) (s : State), exec (.incAbs w) s = .next { s with
    pc := s.pc + 2#16, memory := s.memory.write (s.eaAbs w) (s.readByte (s.eaAbs w) + 1#8),
    nzAccumulator := (s.readByte (s.eaAbs w) + 1#8).setWidth 9 }) ∧
  (∀ s : State, exec .decA s = .next { s with a := s.a - 1#8, nzAccumulator := (s.a - 1#8).setWidth 9 }) ∧
  (∀ s : State, exec .decX s = .next { s with x := s.x - 1#8, nzAccumulator := (s.x - 1#8).setWidth 9 }) ∧
  (∀ s : State, exec .decY s = .next { s with y := s.y - 1#8, nzAccumulator := (s.y - 1#8).setWidth 9 }) ∧
  (∀ (d : Byte) (s : State), exec (.decDp d) s = .next { s with
    pc := s.pc + 1#16, memory := s.memory.write (s.eaDp d) (s.readByte (s.eaDp d) - 1#8),
    nzAccumulator := (s.readByte (s.eaDp d) - 1#8).setWidth 9 }) ∧
  (∀ (w : Address) (s : State), exec (.decAbs w) s = .next { s with
    pc := s.pc + 2#16, memory := s.memory.write (s.eaAbs w) (s.readByte (s.eaAbs w) - 1#8),
    nzAccumulator := (s.readByte (s.eaAbs w) - 1#8).setWidth 9 })

/-- The twelve Shift instructions (rule R180), each of the four operations with its result and its bit shifted out as rule
R180's table has them: A, or the cell, takes the result, C the bit shifted out, N and Z the result; the rotates shift in
the old Carry. They always complete. `ASL`, `ROL` and `ROR` are the spec's own choice (decision D18). -/
def Obligations.ShiftInstructions : Prop :=
  (∀ s : State, exec .aslA s = .next { s with
    a := s.a <<< 1, nzAccumulator := (s.a <<< 1).setWidth 9,
    statusResidual := (s.statusResidual &&& 0x5C#8) ||| (if s.a.getLsbD 7 then 1#8 else 0#8) }) ∧
  (∀ (d : Byte) (s : State), exec (.aslDp d) s = .next { s with
    pc := s.pc + 1#16, memory := s.memory.write (s.eaDp d) (s.readByte (s.eaDp d) <<< 1),
    nzAccumulator := (s.readByte (s.eaDp d) <<< 1).setWidth 9,
    statusResidual := (s.statusResidual &&& 0x5C#8) ||| (if (s.readByte (s.eaDp d)).getLsbD 7 then 1#8 else 0#8) }) ∧
  (∀ (w : Address) (s : State), exec (.aslAbs w) s = .next { s with
    pc := s.pc + 2#16, memory := s.memory.write (s.eaAbs w) (s.readByte (s.eaAbs w) <<< 1),
    nzAccumulator := (s.readByte (s.eaAbs w) <<< 1).setWidth 9,
    statusResidual := (s.statusResidual &&& 0x5C#8) ||| (if (s.readByte (s.eaAbs w)).getLsbD 7 then 1#8 else 0#8) }) ∧
  (∀ s : State, exec .lsrA s = .next { s with
    a := s.a >>> 1, nzAccumulator := (s.a >>> 1).setWidth 9,
    statusResidual := (s.statusResidual &&& 0x5C#8) ||| (if s.a.getLsbD 0 then 1#8 else 0#8) }) ∧
  (∀ (d : Byte) (s : State), exec (.lsrDp d) s = .next { s with
    pc := s.pc + 1#16, memory := s.memory.write (s.eaDp d) (s.readByte (s.eaDp d) >>> 1),
    nzAccumulator := (s.readByte (s.eaDp d) >>> 1).setWidth 9,
    statusResidual := (s.statusResidual &&& 0x5C#8) ||| (if (s.readByte (s.eaDp d)).getLsbD 0 then 1#8 else 0#8) }) ∧
  (∀ (w : Address) (s : State), exec (.lsrAbs w) s = .next { s with
    pc := s.pc + 2#16, memory := s.memory.write (s.eaAbs w) (s.readByte (s.eaAbs w) >>> 1),
    nzAccumulator := (s.readByte (s.eaAbs w) >>> 1).setWidth 9,
    statusResidual := (s.statusResidual &&& 0x5C#8) ||| (if (s.readByte (s.eaAbs w)).getLsbD 0 then 1#8 else 0#8) }) ∧
  (∀ s : State, exec .rolA s = .next { s with
    a := (s.a <<< 1) ||| (if s.flagC then 0x01#8 else 0x00#8), nzAccumulator := ((s.a <<< 1) ||| (if s.flagC then 0x01#8 else 0x00#8)).setWidth 9,
    statusResidual := (s.statusResidual &&& 0x5C#8) ||| (if s.a.getLsbD 7 then 1#8 else 0#8) }) ∧
  (∀ (d : Byte) (s : State), exec (.rolDp d) s = .next { s with
    pc := s.pc + 1#16, memory := s.memory.write (s.eaDp d) ((s.readByte (s.eaDp d) <<< 1) ||| (if s.flagC then 0x01#8 else 0x00#8)),
    nzAccumulator := ((s.readByte (s.eaDp d) <<< 1) ||| (if s.flagC then 0x01#8 else 0x00#8)).setWidth 9,
    statusResidual := (s.statusResidual &&& 0x5C#8) ||| (if (s.readByte (s.eaDp d)).getLsbD 7 then 1#8 else 0#8) }) ∧
  (∀ (w : Address) (s : State), exec (.rolAbs w) s = .next { s with
    pc := s.pc + 2#16, memory := s.memory.write (s.eaAbs w) ((s.readByte (s.eaAbs w) <<< 1) ||| (if s.flagC then 0x01#8 else 0x00#8)),
    nzAccumulator := ((s.readByte (s.eaAbs w) <<< 1) ||| (if s.flagC then 0x01#8 else 0x00#8)).setWidth 9,
    statusResidual := (s.statusResidual &&& 0x5C#8) ||| (if (s.readByte (s.eaAbs w)).getLsbD 7 then 1#8 else 0#8) }) ∧
  (∀ s : State, exec .rorA s = .next { s with
    a := (s.a >>> 1) ||| (if s.flagC then 0x80#8 else 0x00#8), nzAccumulator := ((s.a >>> 1) ||| (if s.flagC then 0x80#8 else 0x00#8)).setWidth 9,
    statusResidual := (s.statusResidual &&& 0x5C#8) ||| (if s.a.getLsbD 0 then 1#8 else 0#8) }) ∧
  (∀ (d : Byte) (s : State), exec (.rorDp d) s = .next { s with
    pc := s.pc + 1#16, memory := s.memory.write (s.eaDp d) ((s.readByte (s.eaDp d) >>> 1) ||| (if s.flagC then 0x80#8 else 0x00#8)),
    nzAccumulator := ((s.readByte (s.eaDp d) >>> 1) ||| (if s.flagC then 0x80#8 else 0x00#8)).setWidth 9,
    statusResidual := (s.statusResidual &&& 0x5C#8) ||| (if (s.readByte (s.eaDp d)).getLsbD 0 then 1#8 else 0#8) }) ∧
  (∀ (w : Address) (s : State), exec (.rorAbs w) s = .next { s with
    pc := s.pc + 2#16, memory := s.memory.write (s.eaAbs w) ((s.readByte (s.eaAbs w) >>> 1) ||| (if s.flagC then 0x80#8 else 0x00#8)),
    nzAccumulator := ((s.readByte (s.eaAbs w) >>> 1) ||| (if s.flagC then 0x80#8 else 0x00#8)).setWidth 9,
    statusResidual := (s.statusResidual &&& 0x5C#8) ||| (if (s.readByte (s.eaAbs w)).getLsbD 0 then 1#8 else 0#8) })

/-- `BRA` (rules R93, R200): `pc` takes the address after the instruction plus the sign-extended displacement, modulo
0x10000, and nothing else changes. It always completes. -/
def Obligations.BranchAlwaysGoesToTheRelativeTarget : Prop :=
  (∀ (r : Byte) (s : State), exec (.bra r) s = .next { s with pc := s.pc + 1#16 + r.signExtend 16 }) ∧
  (∀ (r : Byte) (s t : State), exec (.bra r) s = .next t →
    (t.pc.toNat : Int) = (s.pc.toNat + 1 + r.toInt) % 0x10000)

/-- The eight conditional branches (rules R201 to R209): the operand byte is always consumed; if the condition holds `pc`
takes the relative target, otherwise it stays at the next instruction and 2 cycles are given back; nothing else changes.
They always complete. (Within a step the full cost has been committed before, rule R80, so `cycles` is at least 3; where it
is below 2 the amount given back is the model's choice, notes/assumptions/6.md.) The
branches on N and V are the spec's own closure (decision D19). -/
def Obligations.ConditionalBranchInstructions : Prop :=
  (∀ (r : Byte) (s : State), exec (.bpl r) s = .next (if !s.flagN then { s with pc := s.pc + 1#16 + r.signExtend 16 }
    else { s with pc := s.pc + 1#16, cycles := s.cycles - 2 })) ∧
  (∀ (r : Byte) (s : State), exec (.bmi r) s = .next (if s.flagN then { s with pc := s.pc + 1#16 + r.signExtend 16 }
    else { s with pc := s.pc + 1#16, cycles := s.cycles - 2 })) ∧
  (∀ (r : Byte) (s : State), exec (.bvc r) s = .next (if !s.flagV then { s with pc := s.pc + 1#16 + r.signExtend 16 }
    else { s with pc := s.pc + 1#16, cycles := s.cycles - 2 })) ∧
  (∀ (r : Byte) (s : State), exec (.bvs r) s = .next (if s.flagV then { s with pc := s.pc + 1#16 + r.signExtend 16 }
    else { s with pc := s.pc + 1#16, cycles := s.cycles - 2 })) ∧
  (∀ (r : Byte) (s : State), exec (.bcc r) s = .next (if !s.flagC then { s with pc := s.pc + 1#16 + r.signExtend 16 }
    else { s with pc := s.pc + 1#16, cycles := s.cycles - 2 })) ∧
  (∀ (r : Byte) (s : State), exec (.bcs r) s = .next (if s.flagC then { s with pc := s.pc + 1#16 + r.signExtend 16 }
    else { s with pc := s.pc + 1#16, cycles := s.cycles - 2 })) ∧
  (∀ (r : Byte) (s : State), exec (.bne r) s = .next (if !s.flagZ then { s with pc := s.pc + 1#16 + r.signExtend 16 }
    else { s with pc := s.pc + 1#16, cycles := s.cycles - 2 })) ∧
  (∀ (r : Byte) (s : State), exec (.beq r) s = .next (if s.flagZ then { s with pc := s.pc + 1#16 + r.signExtend 16 }
    else { s with pc := s.pc + 1#16, cycles := s.cycles - 2 }))

/-! ### Frames: what an instruction leaves unchanged. The address stored to is `storeAddress`, which applies the operand
form's own function (`eaDp`, `eaAbs`, `eaAbsX`, `eaAbsY`) as the meanings do; consuming the operand bytes before it changes
`pc` alone, which none of them reads. -/

/-- Load and Logical (rules R100, R140): every register but the destination, every flag but N and Z, `cycles` and every byte
of memory are unchanged. -/
def Obligations.LoadAndLogicalFrame : Prop :=
  ∀ (i : Instr) (s t : State), i.cls = .load ∨ i.cls = .logical → exec i s = .next t →
    (∀ k, destReg i ≠ some k → t.reg k = s.reg k) ∧ t.sp = s.sp ∧ t.pageBase = s.pageBase ∧
    t.statusResidual = s.statusResidual ∧ t.cycles = s.cycles ∧ storeAddress i s = none ∧
    ∀ a, t.readByte a = s.readByte a

/-- Store (rule R120): every register, every flag and `cycles` are unchanged, and every byte of memory but the one at the
effective address. -/
def Obligations.StoreFrame : Prop :=
  ∀ (i : Instr) (s t : State), i.cls = .store → exec i s = .next t →
    (∀ k, t.reg k = s.reg k) ∧ t.sp = s.sp ∧ t.pageBase = s.pageBase ∧ t.nzAccumulator = s.nzAccumulator ∧
    t.statusResidual = s.statusResidual ∧ t.cycles = s.cycles ∧
    ∃ ea, storeAddress i s = some ea ∧ ∀ a, a ≠ ea → t.readByte a = s.readByte a

/-- Increment/Decrement (rule R160): every register but the destination, every flag but N and Z, `cycles`, and every byte of
memory but the one at the effective address of a memory form are unchanged; a register form stores nothing. -/
def Obligations.IncrementAndDecrementFrame : Prop :=
  ∀ (i : Instr) (s t : State), i.cls = .incDec → exec i s = .next t →
    (∀ k, destReg i ≠ some k → t.reg k = s.reg k) ∧ t.sp = s.sp ∧ t.pageBase = s.pageBase ∧
    t.statusResidual = s.statusResidual ∧ t.cycles = s.cycles ∧
    (∀ ea, storeAddress i s = some ea → destReg i = none ∧ ∀ a, a ≠ ea → t.readByte a = s.readByte a) ∧
    (storeAddress i s = none → ∀ a, t.readByte a = s.readByte a)

/-- Shift (rule R180): every register but A in the accumulator form, the flags V, P, B, H, I, `cycles`, and every byte of
memory but the one at the effective address of a memory form are unchanged; the accumulator form stores nothing. -/
def Obligations.ShiftFrame : Prop :=
  ∀ (i : Instr) (s t : State), i.cls = .shift → exec i s = .next t →
    (∀ k, destReg i ≠ some k → t.reg k = s.reg k) ∧ t.sp = s.sp ∧ t.pageBase = s.pageBase ∧
    t.statusResidual &&& 0x5C#8 = s.statusResidual &&& 0x5C#8 ∧ t.statusResidual &&& 0xA2#8 = 0x00#8 ∧
    t.cycles = s.cycles ∧
    (∀ ea, storeAddress i s = some ea → destReg i = none ∧ ∀ a, a ≠ ea → t.readByte a = s.readByte a) ∧
    (storeAddress i s = none → ∀ a, t.readByte a = s.readByte a)

/-- Branch (rules R200, R209): no register but `pc`, no flag and no byte of memory changes; `cycles` changes only by the
correction of an untaken conditional branch. Where `cycles` is below 2, which no step with an admissible table meets, the
amount is the model's choice: the subtraction stops at 0 (notes/assumptions/6.md). -/
def Obligations.BranchFrame : Prop :=
  ∀ (i : Instr) (s t : State), i.cls = .branch → exec i s = .next t →
    (∀ k, t.reg k = s.reg k) ∧ t.sp = s.sp ∧ t.pageBase = s.pageBase ∧ t.nzAccumulator = s.nzAccumulator ∧
    t.statusResidual = s.statusResidual ∧ (∀ a, t.readByte a = s.readByte a) ∧
    (t.cycles = s.cycles ∨ (i.conditional = true ∧ t.pc = s.pc + 1#16 ∧ t.cycles = s.cycles - 2))

/-! ### Rules about all instructions -/

/-- The source's property "Flag derivation" (rule R21; spec/95_test_vectors.md Q3), for Shift as well: after an
instruction that sets N and Z writes the byte `v` to its register or cell, Z says `v == 0` and N says `v >= 0x80`, in the
flags and, with a legal `page_base`, in `status_byte()`. -/
def Obligations.FlagsFollowTheByteWritten : Prop :=
  ∀ (i : Instr) (s t : State) (v : Byte), i.cls ≠ .store → i.cls ≠ .branch → exec i s = .next t →
    ((∃ k, destReg i = some k ∧ t.reg k = v) ∨ (∃ ea, storeAddress i s = some ea ∧ t.readByte ea = v)) →
    t.flagZ = decide (v = 0x00#8) ∧ t.flagN = decide (0x80 ≤ v.toNat) ∧
    (s.pageBase = 0x000#9 ∨ s.pageBase = 0x100#9 →
      t.statusByte.getLsbD 1 = decide (v = 0x00#8) ∧ t.statusByte.getLsbD 7 = decide (0x80 ≤ v.toNat))

/-- Carry is written by the Shift instructions alone: any other step leaves all of `status_residual` as it is
(rules R17, R23). -/
def Obligations.OnlyShiftsWriteTheCarry : Prop :=
  ∀ (T : Config.CostTable) (s t : State) (i : Instr) (rest : List Byte),
    s.peek = .ok (i, rest) → i.cls ≠ .shift → stepWith T s = .next t → t.statusResidual = s.statusResidual

/-- `sp`, P, V, B, H and I keep their values through every run, whatever the program (rules R12, R15, R23, R222). -/
def Obligations.NoRunChangesSpOrTheUnwrittenFlags : Prop :=
  ∀ (T : Config.CostTable) (budget : Nat) (s : State),
    (run T budget s).2.sp = s.sp ∧ (run T budget s).2.pageBase = s.pageBase ∧
    (run T budget s).2.statusResidual &&& 0x5C#8 = s.statusResidual &&& 0x5C#8

/-- No instruction reads `sp` (rule R12), and B, H and I are inert (rules R19, R222): changing them
before an instruction changes them after it and nothing else. -/
def Obligations.SpAndTheInertFlagsAreNeverRead : Prop :=
  (∀ (i : Instr) (s t : State) (v : Byte), exec i s = .next t → exec i { s with sp := v } = .next { t with sp := v }) ∧
  (∀ (i : Instr) (s t : State) (m : Byte), m &&& 0x1C#8 = m → exec i s = .next t →
    exec i { s with statusResidual := s.statusResidual ^^^ m } =
      .next { t with statusResidual := t.statusResidual ^^^ m })

/-- Two states that differ only in `nz_accumulator` but agree on N and Z are indistinguishable by the status byte, the
snapshot, every instruction and every run (rule R29). -/
def Obligations.HiddenAccumulatorIsUnobservable : Prop :=
  ∀ s t : State, s.SameButNZ t →
    s.statusByte = t.statusByte ∧ s.snapshot = t.snapshot ∧
    (∀ (i : Instr) (s' : State), exec i s = .next s' → ∃ t', exec i t = .next t' ∧ s'.SameButNZ t') ∧
    (∀ (T : Config.CostTable) (f : Fault), stepWith T s = .fault f → stepWith T t = .fault f) ∧
    (∀ (T : Config.CostTable) (budget : Nat),
      (run T budget s).1 = (run T budget t).1 ∧ (run T budget s).2.SameButNZ (run T budget t).2)

/-- The effect of an instruction on registers, flags and memory does not depend on `cycles`, on the budget or on the cost
table (rule R249): from states that differ in `cycles` alone `exec` gives states that differ in `cycles` alone, and so does
a step with any two tables; neither takes a budget. -/
def Obligations.EffectsDoNotDependOnCycles : Prop :=
  (∀ (i : Instr) (s t : State) (c : Nat), exec i s = .next t →
    ∃ c', exec i { s with cycles := c } = .next { t with cycles := c' }) ∧
  (∀ (T T' : Config.CostTable) (s t : State) (c : Nat), stepWith T s = .next t →
    ∃ c', stepWith T' { s with cycles := c } = .next { t with cycles := c' })

/-- An instruction's effect depends on no memory byte but the one of its data read: if two states agree but for the memory,
and on that byte, the registers and flags after it agree, the byte stored is the same, and every other byte is as it was
(rules R46, R54; decision D24). -/
def Obligations.EffectsReadNoOtherByte : Prop :=
  ∀ (i : Instr) (s s' t : State), State.AgreeOn (loadAddress i s).toList s s' → exec i s = .next t →
    ∃ t', exec i s' = .next t' ∧ t' = { t with memory := t'.memory } ∧
      (∀ a, storeAddress i s = some a → t'.readByte a = t.readByte a) ∧
      (∀ a, storeAddress i s ≠ some a → t.readByte a = s.readByte a ∧ t'.readByte a = s'.readByte a)

/-- The accesses of an instruction are in the order of rule R54, at most 3 fetches, 1 read and 1 write (rule R81); the
read-modify-write forms read and write the same address (rule R46). -/
def Obligations.AccessesAreOrderedAndBounded : Prop :=
  (∀ (i : Instr) (s : State), ∃ reads writes : List Access,
    accesses i s = (List.range i.length).map (fun k => Access.fetch (s.pc + BitVec.ofNat 16 k)) ++ reads ++ writes ∧
    i.length ≤ 3 ∧ reads.length ≤ 1 ∧ writes.length ≤ 1 ∧
    (∀ x ∈ reads, ∃ a, x = .read a) ∧ (∀ x ∈ writes, ∃ a, x = .write a)) ∧
  (∀ (i : Instr) (s : State) (a b : Address), loadAddress i s = some a → storeAddress i s = some b → a = b)

/-- The condition of a conditional branch is in its opcode byte: bits 7:6 select the flag (0 N, 1 V, 2 C, 3 Z), bit 5 the
value on which it branches (rule R66); taken, `pc` takes the relative target, untaken, 2 cycles are given back (rule
R209). Where `cycles` is below 2, which no step with an admissible table meets, the amount given back is the model's
choice: the subtraction stops at 0 (notes/assumptions/6.md). -/
def Obligations.BranchConditionsFollowTheOpcodeBits : Prop :=
  ∀ (i : Instr) (s t : State), i.conditional = true → exec i s = .next t →
    ∃ rel : Byte, i.operandBytes = [rel] ∧
      (let flag := match i.opcode.getLsbD 7, i.opcode.getLsbD 6 with
         | false, false => s.flagN
         | false, true => s.flagV
         | true, false => s.flagC
         | true, true => s.flagZ
       (flag = i.opcode.getLsbD 5 → t.pc = s.pc + 1#16 + rel.signExtend 16 ∧ t.cycles = s.cycles) ∧
       (flag ≠ i.opcode.getLsbD 5 → t.pc = s.pc + 1#16 ∧ t.cycles = s.cycles - 2))

/-- Nine rotations restore the operand and the Carry (rules R187, R190, corner cases): nine `ROL A`, and nine `ROR A`,
complete and leave A and C as they were. The rotates are the spec's own choice (decision D18). -/
def Obligations.NineRotationsRestoreAccumulatorAndCarry : Prop :=
  ∀ i : Instr, i = .rolA ∨ i = .rorA → ∀ s : State,
    ∃ t, (List.replicate 9 i).foldlM (fun u j => match exec j u with | .next u' => some u' | _ => none) s = some t ∧
      t.a = s.a ∧ t.flagC = s.flagC

/-! ### Steps -/

/-- When the bytes at `pc` decode to an instruction, a step is its `exec` in the state with the cost committed and `pc` past
the opcode byte, nothing else changed (rule R81). The clause on `step` commits the cost of the default table, whose numbers
are presumed (notes/assumptions/3.md); the clause on `stepWith` is for every table. -/
def Obligations.StepRunsTheDecodedInstruction : Prop :=
  ∀ (s : State) (i : Instr) (rest : List Byte),
    decode [s.readByte s.pc, s.readByte (s.pc + 1#16), s.readByte (s.pc + 2#16)] = .ok (i, rest) →
    step s = exec i { s with pc := s.pc + 1#16, cycles := s.cycles + defaultCycleCost i } ∧
    (∀ T : Config.CostTable, stepWith T s = exec i { s with pc := s.pc + 1#16, cycles := s.cycles + T i })

/-- When the words of an instruction stand in memory from `pc` on, at ascending addresses modulo 0x10000, a step runs that
instruction (rules R60, R80, R81). The clause on `step` commits the cost of the default table, whose numbers are presumed
(notes/assumptions/3.md); the clause on `stepWith` is for every table. -/
def Obligations.StepRunsTheWordsAtPc : Prop :=
  ∀ (s : State) (i : Instr), (∀ k (h : k < (encode i).length), s.readByte (s.pc + BitVec.ofNat 16 k) = (encode i)[k]) →
    step s = exec i { s with pc := s.pc + 1#16, cycles := s.cycles + defaultCycleCost i } ∧
    (∀ T : Config.CostTable, stepWith T s = exec i { s with pc := s.pc + 1#16, cycles := s.cycles + T i })

/-- The instruction stored by `withFetchWord` is the one that the next step runs, and only memory differs (rule R52).
`withFetchWord` is the model's stand-in for the host's writes of rule R245 (notes/assumptions/4.md), and the step commits
the cost of the default table, whose numbers are presumed (notes/assumptions/3.md). -/
def Obligations.StepRunsTheStoredFetchWord : Prop :=
  ∀ (s : State) (nbits w : Nat) (i : Instr), decodeTableWord nbits w = some i →
    let u := s.withFetchWord nbits w
    u = { s with memory := u.memory } ∧
    step u = exec i { u with pc := s.pc + 1#16, cycles := s.cycles + defaultCycleCost i }

/-- Consuming an instruction's bytes by `Fetch8()`, from the opcode on, gives the words the decoder read, and leaves `pc` at
the next instruction (rules R11, R60, R87). -/
def Obligations.FetchedBytesAreTheDecodedWords : Prop :=
  ∀ (s : State) (i : Instr) (rest : List Byte), s.peek = .ok (i, rest) →
    s.fetchBytes i.length = (encode i, { s with pc := s.pc + BitVec.ofNat 16 i.length })

/-- The one exception (rule R220): a step faults exactly when the byte at `pc` is unassigned, and reports that address and
that byte; on an assigned opcode it always completes (rule R81), and it never refuses. -/
def Obligations.StepFaultsExactlyOnUnassignedOpcodes : Prop :=
  ∀ (T : Config.CostTable) (s : State),
    (assigned (s.readByte s.pc) = false →
      stepWith T s = .fault (.unimplementedInstruction s.pc (s.readByte s.pc))) ∧
    (assigned (s.readByte s.pc) = true → ∃ t, stepWith T s = .next t)

/-- Only a taken branch moves `pc` otherwise than to the next instruction (rules R11, R210). -/
def Obligations.OnlyTakenBranchesMovePcElsewhere : Prop :=
  ∀ (T : Config.CostTable) (s t : State) (i : Instr) (rest : List Byte),
    s.peek = .ok (i, rest) → stepWith T s = .next t →
    t.pc = s.pc + BitVec.ofNat 16 i.length ∨
    (i.cls = .branch ∧ ∃ rel : Byte, i.operandBytes = [rel] ∧ t.pc = s.pc + 2#16 + rel.signExtend 16)

/-- What a step adds to `cycles` (rules R24, R80, R209): the table cost, or 2 less for a conditional branch that ends at the
next instruction; with an admissible table always at least 1. -/
def Obligations.StepAddsItsCostOrTwoLess : Prop :=
  ∀ (T : Config.CostTable) (s t : State) (i : Instr) (rest : List Byte), Admissible T →
    s.peek = .ok (i, rest) → stepWith T s = .next t →
    s.cycles + 1 ≤ t.cycles ∧
    (t.cycles = s.cycles + T i ∨ (i.conditional = true ∧ t.pc = s.pc + 2#16 ∧ t.cycles + 2 = s.cycles + T i))

/-- A store is seen by the next instruction's fetch (rules R52, R122): if `MOV !abs,A` stores to the address after itself,
the opcode at the new `pc` is A, and if A is an unassigned byte the next step faults on it. -/
def Obligations.StoreIntoTheNextOpcodeIsFetched : Prop :=
  ∀ (T : Config.CostTable) (s t : State) (rest : List Byte),
    s.peek = .ok (.movAbsA (s.pc + 3#16), rest) → stepWith T s = .next t →
    t.pc = s.pc + 3#16 ∧ t.readByte t.pc = s.a ∧
    (assigned s.a = false → stepWith T t = .fault (.unimplementedInstruction (s.pc + 3#16) s.a))

/-! ### The execution loop -/

/-- The default cost table (rule R248) meets the constraints of rule R3, and its numbers are those of rule R63's column
"cost", form by form. The spec marks every one of them as general knowledge, decision D5 (notes/assumptions/3.md). -/
def Obligations.DefaultCostTableIsAdmissible : Prop :=
  Admissible defaultCycleCost ∧
  (∀ i : Instr, i.format = .impl ∨ i.format = .imm → defaultCycleCost i = 2) ∧
  (∀ i : Instr, i.format = .rel → defaultCycleCost i = 4) ∧
  (∀ i : Instr, i.format = .dp → defaultCycleCost i = if i.cls = .load ∨ i.cls = .logical then 3 else 4) ∧
  (∀ i : Instr, i.format = .dpImm → defaultCycleCost i = 5) ∧
  (∀ w : Address, ∀ i ∈ [Instr.movAAbs w, .movXAbs w, .movYAbs w, .orAAbs w, .andAAbs w, .eorAAbs w],
    defaultCycleCost i = 4) ∧
  (∀ w : Address, defaultCycleCost (.movAbsIdxXA w) = 6 ∧ defaultCycleCost (.movAbsIdxYA w) = 6) ∧
  (∀ w : Address, ∀ i ∈ [Instr.movAAbsIdxX w, .movAAbsIdxY w, .orAAbsIdxX w, .orAAbsIdxY w, .andAAbsIdxX w, .andAAbsIdxY w,
      .eorAAbsIdxX w, .eorAAbsIdxY w, .movAbsA w, .movAbsX w, .movAbsY w, .incAbs w, .decAbs w, .aslAbs w, .lsrAbs w,
      .rolAbs w, .rorAbs w], defaultCycleCost i = 5)

/-- `run` never executes a partial instruction and never overshoots (rule R83): with an admissible table its final state is
a whole number of steps from the start, and the elapsed cycles lie between 0 and the budget. With the budget 0 it
executes nothing and answers `BudgetStop`, or the fault if the opcode at `pc` is unassigned. -/
def Obligations.RunNeverOvershootsItsBudget : Prop :=
  (∀ (T : Config.CostTable) (budget : Nat) (s : State), Admissible T →
    (∃ n, stepsWith T n s = some (run T budget s).2) ∧
    s.cycles ≤ (run T budget s).2.cycles ∧ (run T budget s).2.cycles - s.cycles ≤ budget) ∧
  (∀ (T : Config.CostTable) (s : State), Admissible T →
    run T 0 s =
      (if assigned (s.readByte s.pc) then .budgetStop
       else .fault (.unimplementedInstruction s.pc (s.readByte s.pc)), s))

/-- `run` has the two outcomes of rule R84 and no third, and stops where they say: at an assigned opcode whose table cost
does not fit the remaining budget (rule R82), or at an unassigned opcode, which it reports; the elapsed time is between 0
and the budget, and at most `cycle_budget` instructions execute. -/
def Obligations.RunStopsOnlyForBudgetOrFault : Prop :=
  ∀ (T : Config.CostTable) (budget : Nat) (s : State), Admissible T →
    let t := (run T budget s).2
    s.cycles ≤ t.cycles ∧ t.cycles - s.cycles ≤ budget ∧ executed T budget s ≤ budget ∧
    (((run T budget s).1 = .budgetStop ∧ ∃ i rest, t.peek = .ok (i, rest) ∧ s.cycles + budget < t.cycles + T i) ∨
     ((run T budget s).1 = .fault (.unimplementedInstruction t.pc (t.readByte t.pc)) ∧
      assigned (t.readByte t.pc) = false))

/-- `run` executes whole instructions (rules R83, R84): its final state is a number of steps from the start, at most
`cycle_budget` of them, one trace record each; and each of those instructions fitted the budget when it started. -/
def Obligations.RunIsAWholeNumberOfSteps : Prop :=
  ∀ (T : Config.CostTable) (budget : Nat) (s : State), Admissible T →
    ∃ n, n ≤ budget ∧ n = executed T budget s ∧ stepsWith T n s = some (run T budget s).2 ∧
      ∀ m u, m < n → stepsWith T m s = some u →
        ∃ i rest, u.peek = .ok (i, rest) ∧ u.cycles + T i ≤ s.cycles + budget

/-- An unassigned opcode at `pc` stops a `run` at once, whatever the budget, 0 included, with no state changed, and again in
every later `run` (rules R223, R224, R225; decision D4). -/
def Obligations.FaultPrecedesTheBudgetAndChangesNothing : Prop :=
  (∀ (T : Config.CostTable) (budget : Nat) (s : State), assigned (s.readByte s.pc) = false →
    run T budget s = (.fault (.unimplementedInstruction s.pc (s.readByte s.pc)), s)) ∧
  (∀ (T : Config.CostTable) (budget budget' : Nat) (s t : State) (f : Fault),
    run T budget s = (.fault f, t) → run T budget' t = (.fault f, t))

/-- Splitting a budget never executes more instructions (rule R247 c): `run(a)` then `run(b)` executes at most as many as
`run(a + b)`. -/
def Obligations.SplittingABudgetExecutesNoMore : Prop :=
  ∀ (T : Config.CostTable) (a b : Nat) (s : State), Admissible T →
    executed T a s + executed T b (run T a s).2 ≤ executed T (a + b) s

/-- The trace hook does not affect execution (rule R86): with it `run` gives the same outcome and state; the first record, if
there is one, is that of the first instruction, sampled before it executes. -/
def Obligations.TraceHookDoesNotAffectExecution : Prop :=
  ∀ (T : Config.CostTable) (budget : Nat) (s : State),
    (runTraced T budget s).2 = run T budget s ∧
    (∀ record records, (runTraced T budget s).1 = record :: records →
      record = ⟨s.pc, s.readByte s.pc, s.readByte (s.pc + 1#16), s.a, s.x, s.y, s.sp, s.statusByte⟩)

/-- The dispatch FSM of rule R85 refines the loop of rule R80: started on a `run`, it reaches `IDLE` with the outcome and the
state of `run`. -/
def Obligations.DispatchFsmRefinesRun : Prop :=
  ∀ (T : Config.CostTable) (budget : Nat) (s : State), Admissible T →
    ∃ n, Fsm.advance T n (Fsm.start budget s) = (⟨.idle, (run T budget s).2⟩, some (run T budget s).1)

/-- Host memory access (rule R245): `mem_read` answers the byte of the cell and changes nothing; `mem_write` changes that
one cell and nothing else, and the next read of the core, fetches among them, sees the new byte. -/
def Obligations.HostMemoryAccess : Prop :=
  (∀ (T : Config.CostTable) (s : State) (a : Address),
    transact T (.memRead a) (some s) = .next (s, .byte (s.memory.read a))) ∧
  (∀ (T : Config.CostTable) (s : State) (a : Address) (v : Byte),
    ∃ t, transact T (.memWrite a v) (some s) = .next (t, .done) ∧ t = { s with memory := t.memory } ∧
      t.readByte a = v ∧ (∀ b, b ≠ a → t.readByte b = s.readByte b) ∧ (t.pc = a → t.fetch8.1 = v))

/-- The host transactions but those of rule R245 (rules R241, R243): before the first `construct` every other one is
refused; `construct` is accepted always and replaces the whole state; `snapshot()` changes nothing and answers the register
view; `run` answers its outcome and the elapsed cycles (how these are delivered is the model's choice,
notes/assumptions/8.md). -/
def Obligations.HostTransactionsDoWhatTheTableSays : Prop :=
  (∀ (T : Config.CostTable) (call : HostCall), (∀ snap, call ≠ .construct snap) →
    transact T call none = .refused .notConstructed) ∧
  (∀ (T : Config.CostTable) (snap : Snapshot) (session : Option State),
    transact T (.construct snap) session = .next (construct snap, .done)) ∧
  (∀ (T : Config.CostTable) (s : State), transact T .snapshot (some s) =
    .next (s, .view ⟨s.pc, s.sp, s.a, s.x, s.y, s.statusByte⟩)) ∧
  (∀ (T : Config.CostTable) (s : State) (budget : Nat), transact T (.run budget) (some s) =
    .next ((run T budget s).2, .ran (run T budget s).1 ((run T budget s).2.cycles - s.cycles)))
end

