-- ==== Sys2Proof/Laws/Decode.lean ====
section
/-! SUPPORT. Small lemmas about the byte order of the absolute operand. -/

namespace Sys2Proof

@[simp] theorem loByte_littleEndian (lo hi : Byte) : loByte (littleEndian lo hi) = lo := by
  ext k hk
  simp [loByte, littleEndian, hk, show k < 16 by omega]

@[simp] theorem hiByte_littleEndian (lo hi : Byte) : hiByte (littleEndian lo hi) = hi := by
  ext k hk
  simp [hiByte, littleEndian, show 8 + k < 16 by omega, BitVec.getLsbD_eq_getElem hk]

@[simp] theorem littleEndian_loByte_hiByte (addr : Address) : littleEndian (loByte addr) (hiByte addr) = addr := by
  ext k hk
  by_cases h : k < 8
  · simp [loByte, hiByte, littleEndian, h, hk]
  · simp [loByte, hiByte, littleEndian, h, show k - 8 < 8 by omega, show 8 + (k - 8) = k by omega,
      BitVec.getLsbD_eq_getElem hk]

end Sys2Proof
end

