-- ==== Sys2Proof/Laws/Memory.lean ====
section
/-! SUPPORT. The sparse memory: reading after writing, the canonical form and its preservation, equality of memories. -/

namespace Sys2Proof.Machine.Memory

/-! ### Looking up -/

@[simp] theorem lookup_nil (key : Nat) : lookup [] key = Config.unlistedByte := rfl

theorem lookup_cons (k : Nat) (v : Byte) (m : Memory) (key : Nat) :
    lookup ((k, v) :: m) key = if k = key then v else lookup m key := rfl

/-- A key below every listed key reads as the unlisted byte. -/
theorem lookup_of_lt {m : Memory} {low key : Nat} (h : wfFrom low m = true) (hlt : key < low) :
    lookup m key = Config.unlistedByte := by
  induction m generalizing low with
  | nil => rfl
  | cons c m ih =>
    obtain ⟨k, v⟩ := c
    simp only [wfFrom, Bool.and_eq_true, decide_eq_true_eq] at h
    rw [lookup_cons, if_neg (by omega), ih h.2 (by omega)]

theorem lookup_cell_append {m : Memory} {key low : Nat} (v : Byte) (h : wfFrom low m = true) (hlt : key < low) (j : Nat) :
    lookup (cell key v ++ m) j = if j = key then v else lookup m j := by
  unfold cell
  split
  · next hv =>
    by_cases hj : j = key
    · subst hj; simp [lookup_of_lt h hlt, hv]
    · simp [hj]
  · simp [lookup_cons, eq_comm]

theorem lookup_erase (m : Memory) (key j : Nat) :
    lookup (erase m key) j = if j = key then Config.unlistedByte else lookup m j := by
  induction m with
  | nil => simp [erase]
  | cons c m ih =>
    obtain ⟨k, w⟩ := c
    by_cases hk : k = key
    · rw [erase, List.filter_cons_of_neg (by simp [hk]), ← erase, ih, lookup_cons]
      split_ifs <;> first | rfl | omega
    · rw [erase, List.filter_cons_of_pos (by simp [hk]), ← erase, lookup_cons, ih, lookup_cons]
      split_ifs <;> first | rfl | omega

theorem lookup_place {m : Memory} {key : Nat} (hkey : ∀ c ∈ m, c.1 ≠ key) (v : Byte) (j : Nat) :
    lookup (place m key v) j = if j = key then v else lookup m j := by
  induction m with
  | nil => simp [place, lookup_cons, eq_comm]
  | cons c m ih =>
    obtain ⟨k, w⟩ := c
    have hk : k ≠ key := hkey (k, w) (by simp)
    have ih := ih fun c hc => hkey c (by simp [hc])
    rw [place]
    split
    · rw [lookup_cons]
      simp only [eq_comm]
    · rw [lookup_cons, ih, lookup_cons]
      split_ifs <;> first | rfl | omega

theorem ne_of_mem_erase {m : Memory} {key : Nat} {c : Host.Cell} (h : c ∈ erase m key) : c.1 ≠ key := by
  simpa using (List.mem_filter.mp h).2

/-- Reading after `insert`: the byte at the key, every other key as before, in any memory. -/
theorem lookup_insert (m : Memory) (key : Nat) (v : Byte) (j : Nat) :
    lookup (insert m key v) j = if j = key then v else lookup m j := by
  unfold insert
  split
  · next hv => rw [lookup_erase, hv]
  · rw [lookup_place (fun _ => ne_of_mem_erase), lookup_erase]
    split <;> rfl

/-! ### The canonical form -/

theorem wfFrom_mono {m : Memory} {low low' : Nat} (h : wfFrom low m = true) (hle : low' ≤ low) : wfFrom low' m = true := by
  cases m with
  | nil => rfl
  | cons c m =>
    obtain ⟨k, v⟩ := c
    simp only [wfFrom, Bool.and_eq_true, decide_eq_true_eq] at h ⊢
    exact ⟨⟨⟨by omega, h.1.1.2⟩, h.1.2⟩, h.2⟩

theorem wfFrom_cell_append {m : Memory} {low key : Nat} (v : Byte) (h : wfFrom (key + 1) m = true) (hlow : low ≤ key)
    (hkey : key < 65536) : wfFrom low (cell key v ++ m) = true := by
  unfold cell
  split
  · exact wfFrom_mono h (by omega)
  · simp_all [wfFrom]

theorem wfFrom_erase {m : Memory} {low : Nat} (key : Nat) (h : wfFrom low m = true) : wfFrom low (erase m key) = true := by
  induction m generalizing low with
  | nil => rfl
  | cons c m ih =>
    obtain ⟨k, w⟩ := c
    simp only [wfFrom, Bool.and_eq_true, decide_eq_true_eq] at h
    by_cases hk : k = key
    · rw [erase, List.filter_cons_of_neg (by simp [hk]), ← erase]
      exact wfFrom_mono (ih h.2) (by omega)
    · rw [erase, List.filter_cons_of_pos (by simp [hk]), ← erase]
      simp only [wfFrom, Bool.and_eq_true, decide_eq_true_eq]
      exact ⟨h.1, ih h.2⟩

theorem wfFrom_place {m : Memory} {low key : Nat} {v : Byte} (h : wfFrom low m = true) (hm : ∀ c ∈ m, c.1 ≠ key)
    (hlow : low ≤ key) (hkey : key < 65536) (hv : v ≠ Config.unlistedByte) : wfFrom low (place m key v) = true := by
  induction m generalizing low with
  | nil => simp [place, wfFrom, hlow, hkey, hv]
  | cons c m ih =>
    obtain ⟨k, w⟩ := c
    have hk : k ≠ key := hm (k, w) (by simp)
    simp only [wfFrom, Bool.and_eq_true, decide_eq_true_eq] at h
    rw [place]
    split
    · simp only [wfFrom, Bool.and_eq_true, decide_eq_true_eq]
      exact ⟨⟨⟨hlow, hkey⟩, hv⟩, ⟨⟨by omega, h.1.1.2⟩, h.1.2⟩, h.2⟩
    · simp only [wfFrom, Bool.and_eq_true, decide_eq_true_eq]
      exact ⟨h.1, ih h.2 (fun c hc => hm c (by simp [hc])) (by omega)⟩

/-- `insert` keeps the canonical form. -/
theorem wfFrom_insert {m : Memory} {low key : Nat} (v : Byte) (h : wfFrom low m = true) (hlow : low ≤ key)
    (hkey : key < 65536) : wfFrom low (insert m key v) = true := by
  unfold insert
  split
  · exact wfFrom_erase key h
  · next hv => exact wfFrom_place (wfFrom_erase key h) (fun _ => ne_of_mem_erase) hlow hkey hv

/-- `MemWrite` keeps the canonical form. -/
theorem wf_write {m : Memory} (h : m.wf = true) (addr : Address) (v : Byte) : (m.write addr v).wf = true :=
  wfFrom_insert v h (Nat.zero_le _) addr.isLt

/-- An image of at most 65536 bytes gives a memory in canonical form. -/
theorem wfFrom_ofBytes (bytes : List Byte) {key low : Nat} (hlow : low ≤ key) (hlen : key + bytes.length ≤ 65536) :
    wfFrom low (ofBytes key bytes) = true := by
  induction bytes generalizing key low with
  | nil => rfl
  | cons v bytes ih =>
    simp only [List.length_cons] at hlen
    exact wfFrom_cell_append v (ih (key := key + 1) (low := key + 1) le_rfl (by omega)) hlow (by omega)

/-- Reading an image: the byte of the list at that distance. -/
theorem lookup_ofBytes (bytes : List Byte) {key : Nat} (hlen : key + bytes.length ≤ 65536) (j : Nat) (hj : j < bytes.length) :
    lookup (ofBytes key bytes) (key + j) = bytes[j] := by
  induction bytes generalizing key j with
  | nil => simp at hj
  | cons v bytes ih =>
    simp only [List.length_cons] at hlen hj
    rw [ofBytes, lookup_cell_append v (wfFrom_ofBytes bytes (low := key + 1) le_rfl (by omega)) (by omega)]
    cases j with
    | zero => simp
    | succ j =>
      rw [if_neg (by omega), List.getElem_cons_succ, ← ih (key := key + 1) (by omega) j (by omega)]
      congr 1
      omega

/-! ### Equal memories are equal data -/

theorem eq_of_lookup_eq {m n : Memory} {low : Nat} (hm : wfFrom low m = true) (hn : wfFrom low n = true)
    (h : ∀ key, lookup m key = lookup n key) : m = n := by
  induction m generalizing low n with
  | nil =>
    cases n with
    | nil => rfl
    | cons c n =>
      obtain ⟨k, v⟩ := c
      simp only [wfFrom, Bool.and_eq_true, decide_eq_true_eq] at hn
      have := h k
      simp [lookup_cons] at this
      exact absurd this.symm hn.1.2
  | cons c m ih =>
    obtain ⟨k, v⟩ := c
    have hm' := hm
    simp only [wfFrom, Bool.and_eq_true, decide_eq_true_eq] at hm
    cases n with
    | nil =>
      have := h k
      simp [lookup_cons] at this
      exact absurd this hm.1.2
    | cons d n =>
      obtain ⟨j, w⟩ := d
      have hn' := hn
      simp only [wfFrom, Bool.and_eq_true, decide_eq_true_eq] at hn
      have hkj : k = j := by
        rcases Nat.lt_trichotomy k j with hlt | heq | hgt
        · have := h k
          rw [lookup_cons, if_pos rfl, lookup_cons, if_neg (by omega), lookup_of_lt hn.2 (by omega)] at this
          exact absurd this hm.1.2
        · exact heq
        · have := h j
          rw [lookup_cons, if_neg (by omega), lookup_of_lt hm.2 (by omega), lookup_cons, if_pos rfl] at this
          exact absurd this.symm hn.1.2
      subst hkj
      have hvw : v = w := by simpa [lookup_cons] using h k
      subst hvw
      congr 1
      refine ih hm.2 hn.2 fun key => ?_
      by_cases hk : k = key
      · subst hk; rw [lookup_of_lt hm.2 (by omega), lookup_of_lt hn.2 (by omega)]
      · simpa [lookup_cons, hk] using h key

/-- A key from 65536 on is never listed. -/
theorem lookup_of_ge {m : Memory} {low key : Nat} (h : wfFrom low m = true) (hkey : 65536 ≤ key) :
    lookup m key = Config.unlistedByte := by
  induction m generalizing low with
  | nil => rfl
  | cons c m ih =>
    obtain ⟨k, v⟩ := c
    simp only [wfFrom, Bool.and_eq_true, decide_eq_true_eq] at h
    rw [lookup_cons, if_neg (by omega), ih h.2]

/-! ### Through 16-bit addresses -/

/-- Reading after writing, through 16-bit addresses. -/
theorem read_write (m : Memory) (addr : Address) (v : Byte) (b : Address) :
    (m.write addr v).read b = if b = addr then v else m.read b := by
  rw [read, write, lookup_insert, read]
  simp [BitVec.toNat_inj]

end Sys2Proof.Machine.Memory
end

