-- ==== Sys2Proof/Laws/State.lean ====
section
/-! SUPPORT. One lemma per field per update of the state, so that no later proof unfolds a record update. -/

namespace Sys2Proof.Machine.State

/-! ### `setPc` -/

@[simp] theorem setPc_pc (s : State) (target : Address) : (s.setPc target).pc = target := rfl
@[simp] theorem setPc_sp (s : State) (target : Address) : (s.setPc target).sp = s.sp := rfl
@[simp] theorem setPc_a (s : State) (target : Address) : (s.setPc target).a = s.a := rfl
@[simp] theorem setPc_x (s : State) (target : Address) : (s.setPc target).x = s.x := rfl
@[simp] theorem setPc_y (s : State) (target : Address) : (s.setPc target).y = s.y := rfl
@[simp] theorem setPc_pageBase (s : State) (target : Address) : (s.setPc target).pageBase = s.pageBase := rfl
@[simp] theorem setPc_nzAccumulator (s : State) (target : Address) : (s.setPc target).nzAccumulator = s.nzAccumulator := rfl
@[simp] theorem setPc_statusResidual (s : State) (target : Address) : (s.setPc target).statusResidual = s.statusResidual := rfl
@[simp] theorem setPc_memory (s : State) (target : Address) : (s.setPc target).memory = s.memory := rfl
@[simp] theorem setPc_cycles (s : State) (target : Address) : (s.setPc target).cycles = s.cycles := rfl

/-! ### `advancePc` -/

@[simp] theorem advancePc_pc (s : State) (n : Nat) : (s.advancePc n).pc = s.pc + BitVec.ofNat 16 n := rfl
@[simp] theorem advancePc_sp (s : State) (n : Nat) : (s.advancePc n).sp = s.sp := rfl
@[simp] theorem advancePc_a (s : State) (n : Nat) : (s.advancePc n).a = s.a := rfl
@[simp] theorem advancePc_x (s : State) (n : Nat) : (s.advancePc n).x = s.x := rfl
@[simp] theorem advancePc_y (s : State) (n : Nat) : (s.advancePc n).y = s.y := rfl
@[simp] theorem advancePc_pageBase (s : State) (n : Nat) : (s.advancePc n).pageBase = s.pageBase := rfl
@[simp] theorem advancePc_nzAccumulator (s : State) (n : Nat) : (s.advancePc n).nzAccumulator = s.nzAccumulator := rfl
@[simp] theorem advancePc_statusResidual (s : State) (n : Nat) : (s.advancePc n).statusResidual = s.statusResidual := rfl
@[simp] theorem advancePc_memory (s : State) (n : Nat) : (s.advancePc n).memory = s.memory := rfl
@[simp] theorem advancePc_cycles (s : State) (n : Nat) : (s.advancePc n).cycles = s.cycles := rfl

/-! ### `skipOperands` -/

@[simp] theorem skipOperands_pc (s : State) (n : Nat) : (s.skipOperands n).pc = s.pc + BitVec.ofNat 16 n := rfl
@[simp] theorem skipOperands_sp (s : State) (n : Nat) : (s.skipOperands n).sp = s.sp := rfl
@[simp] theorem skipOperands_a (s : State) (n : Nat) : (s.skipOperands n).a = s.a := rfl
@[simp] theorem skipOperands_x (s : State) (n : Nat) : (s.skipOperands n).x = s.x := rfl
@[simp] theorem skipOperands_y (s : State) (n : Nat) : (s.skipOperands n).y = s.y := rfl
@[simp] theorem skipOperands_pageBase (s : State) (n : Nat) : (s.skipOperands n).pageBase = s.pageBase := rfl
@[simp] theorem skipOperands_nzAccumulator (s : State) (n : Nat) : (s.skipOperands n).nzAccumulator = s.nzAccumulator := rfl
@[simp] theorem skipOperands_statusResidual (s : State) (n : Nat) : (s.skipOperands n).statusResidual = s.statusResidual := rfl
@[simp] theorem skipOperands_memory (s : State) (n : Nat) : (s.skipOperands n).memory = s.memory := rfl
@[simp] theorem skipOperands_cycles (s : State) (n : Nat) : (s.skipOperands n).cycles = s.cycles := rfl

/-! ### `addCycles` -/

@[simp] theorem addCycles_pc (s : State) (n : Nat) : (s.addCycles n).pc = s.pc := rfl
@[simp] theorem addCycles_sp (s : State) (n : Nat) : (s.addCycles n).sp = s.sp := rfl
@[simp] theorem addCycles_a (s : State) (n : Nat) : (s.addCycles n).a = s.a := rfl
@[simp] theorem addCycles_x (s : State) (n : Nat) : (s.addCycles n).x = s.x := rfl
@[simp] theorem addCycles_y (s : State) (n : Nat) : (s.addCycles n).y = s.y := rfl
@[simp] theorem addCycles_pageBase (s : State) (n : Nat) : (s.addCycles n).pageBase = s.pageBase := rfl
@[simp] theorem addCycles_nzAccumulator (s : State) (n : Nat) : (s.addCycles n).nzAccumulator = s.nzAccumulator := rfl
@[simp] theorem addCycles_statusResidual (s : State) (n : Nat) : (s.addCycles n).statusResidual = s.statusResidual := rfl
@[simp] theorem addCycles_memory (s : State) (n : Nat) : (s.addCycles n).memory = s.memory := rfl
@[simp] theorem addCycles_cycles (s : State) (n : Nat) : (s.addCycles n).cycles = s.cycles + n := rfl

/-! ### `commit` -/

@[simp] theorem commit_pc (s : State) (cost : Nat) : (s.commit cost).pc = s.pc + 1#16 := rfl
@[simp] theorem commit_sp (s : State) (cost : Nat) : (s.commit cost).sp = s.sp := rfl
@[simp] theorem commit_a (s : State) (cost : Nat) : (s.commit cost).a = s.a := rfl
@[simp] theorem commit_x (s : State) (cost : Nat) : (s.commit cost).x = s.x := rfl
@[simp] theorem commit_y (s : State) (cost : Nat) : (s.commit cost).y = s.y := rfl
@[simp] theorem commit_pageBase (s : State) (cost : Nat) : (s.commit cost).pageBase = s.pageBase := rfl
@[simp] theorem commit_nzAccumulator (s : State) (cost : Nat) : (s.commit cost).nzAccumulator = s.nzAccumulator := rfl
@[simp] theorem commit_statusResidual (s : State) (cost : Nat) : (s.commit cost).statusResidual = s.statusResidual := rfl
@[simp] theorem commit_memory (s : State) (cost : Nat) : (s.commit cost).memory = s.memory := rfl
@[simp] theorem commit_cycles (s : State) (cost : Nat) : (s.commit cost).cycles = s.cycles + cost := rfl

/-! ### `refundUntaken` -/

@[simp] theorem refundUntaken_pc (s : State) : (s.refundUntaken).pc = s.pc := rfl
@[simp] theorem refundUntaken_sp (s : State) : (s.refundUntaken).sp = s.sp := rfl
@[simp] theorem refundUntaken_a (s : State) : (s.refundUntaken).a = s.a := rfl
@[simp] theorem refundUntaken_x (s : State) : (s.refundUntaken).x = s.x := rfl
@[simp] theorem refundUntaken_y (s : State) : (s.refundUntaken).y = s.y := rfl
@[simp] theorem refundUntaken_pageBase (s : State) : (s.refundUntaken).pageBase = s.pageBase := rfl
@[simp] theorem refundUntaken_nzAccumulator (s : State) : (s.refundUntaken).nzAccumulator = s.nzAccumulator := rfl
@[simp] theorem refundUntaken_statusResidual (s : State) : (s.refundUntaken).statusResidual = s.statusResidual := rfl
@[simp] theorem refundUntaken_memory (s : State) : (s.refundUntaken).memory = s.memory := rfl
@[simp] theorem refundUntaken_cycles (s : State) : (s.refundUntaken).cycles = s.cycles - 2 := rfl

/-! ### `writeByte` -/

@[simp] theorem writeByte_pc (s : State) (addr : Address) (v : Byte) : (s.writeByte addr v).pc = s.pc := rfl
@[simp] theorem writeByte_sp (s : State) (addr : Address) (v : Byte) : (s.writeByte addr v).sp = s.sp := rfl
@[simp] theorem writeByte_a (s : State) (addr : Address) (v : Byte) : (s.writeByte addr v).a = s.a := rfl
@[simp] theorem writeByte_x (s : State) (addr : Address) (v : Byte) : (s.writeByte addr v).x = s.x := rfl
@[simp] theorem writeByte_y (s : State) (addr : Address) (v : Byte) : (s.writeByte addr v).y = s.y := rfl
@[simp] theorem writeByte_pageBase (s : State) (addr : Address) (v : Byte) : (s.writeByte addr v).pageBase = s.pageBase := rfl
@[simp] theorem writeByte_nzAccumulator (s : State) (addr : Address) (v : Byte) : (s.writeByte addr v).nzAccumulator = s.nzAccumulator := rfl
@[simp] theorem writeByte_statusResidual (s : State) (addr : Address) (v : Byte) : (s.writeByte addr v).statusResidual = s.statusResidual := rfl
@[simp] theorem writeByte_memory (s : State) (addr : Address) (v : Byte) : (s.writeByte addr v).memory = s.memory.write addr v := rfl
@[simp] theorem writeByte_cycles (s : State) (addr : Address) (v : Byte) : (s.writeByte addr v).cycles = s.cycles := rfl

/-! ### `setNZ` -/

@[simp] theorem setNZ_pc (s : State) (v : Byte) : (s.setNZ v).pc = s.pc := rfl
@[simp] theorem setNZ_sp (s : State) (v : Byte) : (s.setNZ v).sp = s.sp := rfl
@[simp] theorem setNZ_a (s : State) (v : Byte) : (s.setNZ v).a = s.a := rfl
@[simp] theorem setNZ_x (s : State) (v : Byte) : (s.setNZ v).x = s.x := rfl
@[simp] theorem setNZ_y (s : State) (v : Byte) : (s.setNZ v).y = s.y := rfl
@[simp] theorem setNZ_pageBase (s : State) (v : Byte) : (s.setNZ v).pageBase = s.pageBase := rfl
@[simp] theorem setNZ_nzAccumulator (s : State) (v : Byte) : (s.setNZ v).nzAccumulator = v.setWidth 9 := rfl
@[simp] theorem setNZ_statusResidual (s : State) (v : Byte) : (s.setNZ v).statusResidual = s.statusResidual := rfl
@[simp] theorem setNZ_memory (s : State) (v : Byte) : (s.setNZ v).memory = s.memory := rfl
@[simp] theorem setNZ_cycles (s : State) (v : Byte) : (s.setNZ v).cycles = s.cycles := rfl

/-! ### `setC` -/

@[simp] theorem setC_pc (s : State) (b : Bool) : (s.setC b).pc = s.pc := rfl
@[simp] theorem setC_sp (s : State) (b : Bool) : (s.setC b).sp = s.sp := rfl
@[simp] theorem setC_a (s : State) (b : Bool) : (s.setC b).a = s.a := rfl
@[simp] theorem setC_x (s : State) (b : Bool) : (s.setC b).x = s.x := rfl
@[simp] theorem setC_y (s : State) (b : Bool) : (s.setC b).y = s.y := rfl
@[simp] theorem setC_pageBase (s : State) (b : Bool) : (s.setC b).pageBase = s.pageBase := rfl
@[simp] theorem setC_nzAccumulator (s : State) (b : Bool) : (s.setC b).nzAccumulator = s.nzAccumulator := rfl
@[simp] theorem setC_statusResidual (s : State) (b : Bool) : (s.setC b).statusResidual = (s.statusResidual &&& 0x5C#8) ||| bitByte b := rfl
@[simp] theorem setC_memory (s : State) (b : Bool) : (s.setC b).memory = s.memory := rfl
@[simp] theorem setC_cycles (s : State) (b : Bool) : (s.setC b).cycles = s.cycles := rfl

/-! ### `setReg` -/

@[simp] theorem setReg_pc (s : State) (k : Reg) (v : Byte) : (s.setReg k v).pc = s.pc := by
  cases k <;> rfl
@[simp] theorem setReg_sp (s : State) (k : Reg) (v : Byte) : (s.setReg k v).sp = s.sp := by
  cases k <;> rfl
@[simp] theorem setReg_a (s : State) (k : Reg) (v : Byte) : (s.setReg k v).a = if k = .a then v else s.a := by
  cases k <;> rfl
@[simp] theorem setReg_x (s : State) (k : Reg) (v : Byte) : (s.setReg k v).x = if k = .x then v else s.x := by
  cases k <;> rfl
@[simp] theorem setReg_y (s : State) (k : Reg) (v : Byte) : (s.setReg k v).y = if k = .y then v else s.y := by
  cases k <;> rfl
@[simp] theorem setReg_pageBase (s : State) (k : Reg) (v : Byte) : (s.setReg k v).pageBase = s.pageBase := by
  cases k <;> rfl
@[simp] theorem setReg_nzAccumulator (s : State) (k : Reg) (v : Byte) : (s.setReg k v).nzAccumulator = s.nzAccumulator := by
  cases k <;> rfl
@[simp] theorem setReg_statusResidual (s : State) (k : Reg) (v : Byte) : (s.setReg k v).statusResidual = s.statusResidual := by
  cases k <;> rfl
@[simp] theorem setReg_memory (s : State) (k : Reg) (v : Byte) : (s.setReg k v).memory = s.memory := by
  cases k <;> rfl
@[simp] theorem setReg_cycles (s : State) (k : Reg) (v : Byte) : (s.setReg k v).cycles = s.cycles := by
  cases k <;> rfl

/-! ### Registers through `reg` -/

@[simp] theorem reg_setReg (s : State) (j k : Reg) (v : Byte) : (s.setReg k v).reg j = if k = j then v else s.reg j := by
  cases j <;> cases k <;> rfl

/-- The register view depends on the three register fields alone. -/
theorem reg_congr {s t : State} (ha : t.a = s.a) (hx : t.x = s.x) (hy : t.y = s.y) (k : Reg) : t.reg k = s.reg k := by
  cases k <;> assumption

/-- Reading a byte depends on the memory field alone. -/
theorem readByte_congr {s t : State} (h : t.memory = s.memory) (addr : Address) : t.readByte addr = s.readByte addr := by
  rw [readByte, readByte, h]

/-- Two states with equal fields are equal. -/
theorem ext_fields {s t : State} (hpc : s.pc = t.pc) (hsp : s.sp = t.sp) (ha : s.a = t.a) (hx : s.x = t.x) (hy : s.y = t.y)
    (hp : s.pageBase = t.pageBase) (hnz : s.nzAccumulator = t.nzAccumulator) (hr : s.statusResidual = t.statusResidual)
    (hm : s.memory = t.memory) (hc : s.cycles = t.cycles) : s = t := by
  cases s; cases t; simp_all

end Sys2Proof.Machine.State
end

