-- ==== Sys2Proof/Laws/Flags.lean ====
section
/-! SUPPORT. What the flags, the status byte, the registers and the memory read become under each update of the state. -/

namespace Sys2Proof.Machine

namespace State

/-! ### `setPc` -/

@[simp] theorem setPc_flagN (s : State) (target : Address) : (s.setPc target).flagN = s.flagN := rfl
@[simp] theorem setPc_flagZ (s : State) (target : Address) : (s.setPc target).flagZ = s.flagZ := rfl
@[simp] theorem setPc_flagC (s : State) (target : Address) : (s.setPc target).flagC = s.flagC := rfl
@[simp] theorem setPc_flagV (s : State) (target : Address) : (s.setPc target).flagV = s.flagV := rfl
@[simp] theorem setPc_flagP (s : State) (target : Address) : (s.setPc target).flagP = s.flagP := rfl
@[simp] theorem setPc_flagB (s : State) (target : Address) : (s.setPc target).flagB = s.flagB := rfl
@[simp] theorem setPc_flagH (s : State) (target : Address) : (s.setPc target).flagH = s.flagH := rfl
@[simp] theorem setPc_flagI (s : State) (target : Address) : (s.setPc target).flagI = s.flagI := rfl
@[simp] theorem setPc_statusByte (s : State) (target : Address) : (s.setPc target).statusByte = s.statusByte := rfl
@[simp] theorem setPc_readByte (s : State) (target : Address) (a : Address) : (s.setPc target).readByte a = s.readByte a := rfl
@[simp] theorem setPc_reg (s : State) (target : Address) (j : Reg) : (s.setPc target).reg j = s.reg j := by cases j <;> rfl

/-! ### `skipOperands` -/

@[simp] theorem skipOperands_flagN (s : State) (n : Nat) : (s.skipOperands n).flagN = s.flagN := rfl
@[simp] theorem skipOperands_flagZ (s : State) (n : Nat) : (s.skipOperands n).flagZ = s.flagZ := rfl
@[simp] theorem skipOperands_flagC (s : State) (n : Nat) : (s.skipOperands n).flagC = s.flagC := rfl
@[simp] theorem skipOperands_flagV (s : State) (n : Nat) : (s.skipOperands n).flagV = s.flagV := rfl
@[simp] theorem skipOperands_flagP (s : State) (n : Nat) : (s.skipOperands n).flagP = s.flagP := rfl
@[simp] theorem skipOperands_flagB (s : State) (n : Nat) : (s.skipOperands n).flagB = s.flagB := rfl
@[simp] theorem skipOperands_flagH (s : State) (n : Nat) : (s.skipOperands n).flagH = s.flagH := rfl
@[simp] theorem skipOperands_flagI (s : State) (n : Nat) : (s.skipOperands n).flagI = s.flagI := rfl
@[simp] theorem skipOperands_statusByte (s : State) (n : Nat) : (s.skipOperands n).statusByte = s.statusByte := rfl
@[simp] theorem skipOperands_readByte (s : State) (n : Nat) (a : Address) : (s.skipOperands n).readByte a = s.readByte a := rfl
@[simp] theorem skipOperands_reg (s : State) (n : Nat) (j : Reg) : (s.skipOperands n).reg j = s.reg j := by cases j <;> rfl

/-! ### `commit` -/

@[simp] theorem commit_flagN (s : State) (cost : Nat) : (s.commit cost).flagN = s.flagN := rfl
@[simp] theorem commit_flagZ (s : State) (cost : Nat) : (s.commit cost).flagZ = s.flagZ := rfl
@[simp] theorem commit_flagC (s : State) (cost : Nat) : (s.commit cost).flagC = s.flagC := rfl
@[simp] theorem commit_flagV (s : State) (cost : Nat) : (s.commit cost).flagV = s.flagV := rfl
@[simp] theorem commit_flagP (s : State) (cost : Nat) : (s.commit cost).flagP = s.flagP := rfl
@[simp] theorem commit_flagB (s : State) (cost : Nat) : (s.commit cost).flagB = s.flagB := rfl
@[simp] theorem commit_flagH (s : State) (cost : Nat) : (s.commit cost).flagH = s.flagH := rfl
@[simp] theorem commit_flagI (s : State) (cost : Nat) : (s.commit cost).flagI = s.flagI := rfl
@[simp] theorem commit_statusByte (s : State) (cost : Nat) : (s.commit cost).statusByte = s.statusByte := rfl
@[simp] theorem commit_readByte (s : State) (cost : Nat) (a : Address) : (s.commit cost).readByte a = s.readByte a := rfl
@[simp] theorem commit_reg (s : State) (cost : Nat) (j : Reg) : (s.commit cost).reg j = s.reg j := by cases j <;> rfl

/-! ### `refundUntaken` -/

@[simp] theorem refundUntaken_flagN (s : State) : (s.refundUntaken).flagN = s.flagN := rfl
@[simp] theorem refundUntaken_flagZ (s : State) : (s.refundUntaken).flagZ = s.flagZ := rfl
@[simp] theorem refundUntaken_flagC (s : State) : (s.refundUntaken).flagC = s.flagC := rfl
@[simp] theorem refundUntaken_flagV (s : State) : (s.refundUntaken).flagV = s.flagV := rfl
@[simp] theorem refundUntaken_flagP (s : State) : (s.refundUntaken).flagP = s.flagP := rfl
@[simp] theorem refundUntaken_flagB (s : State) : (s.refundUntaken).flagB = s.flagB := rfl
@[simp] theorem refundUntaken_flagH (s : State) : (s.refundUntaken).flagH = s.flagH := rfl
@[simp] theorem refundUntaken_flagI (s : State) : (s.refundUntaken).flagI = s.flagI := rfl
@[simp] theorem refundUntaken_statusByte (s : State) : (s.refundUntaken).statusByte = s.statusByte := rfl
@[simp] theorem refundUntaken_readByte (s : State) (a : Address) : (s.refundUntaken).readByte a = s.readByte a := rfl
@[simp] theorem refundUntaken_reg (s : State) (j : Reg) : (s.refundUntaken).reg j = s.reg j := by cases j <;> rfl

/-! ### `writeByte` -/

@[simp] theorem writeByte_flagN (s : State) (addr : Address) (v : Byte) : (s.writeByte addr v).flagN = s.flagN := rfl
@[simp] theorem writeByte_flagZ (s : State) (addr : Address) (v : Byte) : (s.writeByte addr v).flagZ = s.flagZ := rfl
@[simp] theorem writeByte_flagC (s : State) (addr : Address) (v : Byte) : (s.writeByte addr v).flagC = s.flagC := rfl
@[simp] theorem writeByte_flagV (s : State) (addr : Address) (v : Byte) : (s.writeByte addr v).flagV = s.flagV := rfl
@[simp] theorem writeByte_flagP (s : State) (addr : Address) (v : Byte) : (s.writeByte addr v).flagP = s.flagP := rfl
@[simp] theorem writeByte_flagB (s : State) (addr : Address) (v : Byte) : (s.writeByte addr v).flagB = s.flagB := rfl
@[simp] theorem writeByte_flagH (s : State) (addr : Address) (v : Byte) : (s.writeByte addr v).flagH = s.flagH := rfl
@[simp] theorem writeByte_flagI (s : State) (addr : Address) (v : Byte) : (s.writeByte addr v).flagI = s.flagI := rfl
@[simp] theorem writeByte_statusByte (s : State) (addr : Address) (v : Byte) : (s.writeByte addr v).statusByte = s.statusByte := rfl
@[simp] theorem writeByte_reg (s : State) (addr : Address) (v : Byte) (j : Reg) : (s.writeByte addr v).reg j = s.reg j := by cases j <;> rfl

/-! ### `setReg` -/

@[simp] theorem setReg_flagN (s : State) (k : Reg) (v : Byte) : (s.setReg k v).flagN = s.flagN := by cases k <;> rfl
@[simp] theorem setReg_flagZ (s : State) (k : Reg) (v : Byte) : (s.setReg k v).flagZ = s.flagZ := by cases k <;> rfl
@[simp] theorem setReg_flagC (s : State) (k : Reg) (v : Byte) : (s.setReg k v).flagC = s.flagC := by cases k <;> rfl
@[simp] theorem setReg_flagV (s : State) (k : Reg) (v : Byte) : (s.setReg k v).flagV = s.flagV := by cases k <;> rfl
@[simp] theorem setReg_flagP (s : State) (k : Reg) (v : Byte) : (s.setReg k v).flagP = s.flagP := by cases k <;> rfl
@[simp] theorem setReg_flagB (s : State) (k : Reg) (v : Byte) : (s.setReg k v).flagB = s.flagB := by cases k <;> rfl
@[simp] theorem setReg_flagH (s : State) (k : Reg) (v : Byte) : (s.setReg k v).flagH = s.flagH := by cases k <;> rfl
@[simp] theorem setReg_flagI (s : State) (k : Reg) (v : Byte) : (s.setReg k v).flagI = s.flagI := by cases k <;> rfl
@[simp] theorem setReg_statusByte (s : State) (k : Reg) (v : Byte) : (s.setReg k v).statusByte = s.statusByte := by cases k <;> rfl
@[simp] theorem setReg_readByte (s : State) (k : Reg) (v : Byte) (a : Address) : (s.setReg k v).readByte a = s.readByte a := by cases k <;> rfl

/-! ### `setNZ` -/

@[simp] theorem setNZ_flagC (s : State) (v : Byte) : (s.setNZ v).flagC = s.flagC := rfl
@[simp] theorem setNZ_flagV (s : State) (v : Byte) : (s.setNZ v).flagV = s.flagV := rfl
@[simp] theorem setNZ_flagP (s : State) (v : Byte) : (s.setNZ v).flagP = s.flagP := rfl
@[simp] theorem setNZ_flagB (s : State) (v : Byte) : (s.setNZ v).flagB = s.flagB := rfl
@[simp] theorem setNZ_flagH (s : State) (v : Byte) : (s.setNZ v).flagH = s.flagH := rfl
@[simp] theorem setNZ_flagI (s : State) (v : Byte) : (s.setNZ v).flagI = s.flagI := rfl
@[simp] theorem setNZ_readByte (s : State) (v : Byte) (a : Address) : (s.setNZ v).readByte a = s.readByte a := rfl
@[simp] theorem setNZ_reg (s : State) (v : Byte) (j : Reg) : (s.setNZ v).reg j = s.reg j := by cases j <;> rfl

/-! ### `setC` -/

@[simp] theorem setC_flagN (s : State) (b : Bool) : (s.setC b).flagN = s.flagN := rfl
@[simp] theorem setC_flagZ (s : State) (b : Bool) : (s.setC b).flagZ = s.flagZ := rfl
@[simp] theorem setC_flagP (s : State) (b : Bool) : (s.setC b).flagP = s.flagP := rfl
@[simp] theorem setC_readByte (s : State) (b : Bool) (a : Address) : (s.setC b).readByte a = s.readByte a := rfl
@[simp] theorem setC_reg (s : State) (b : Bool) (j : Reg) : (s.setC b).reg j = s.reg j := by cases j <;> rfl

/-! ### Memory reads after a write -/

theorem readByte_writeByte (s : State) (addr : Address) (v : Byte) (b : Address) :
    (s.writeByte addr v).readByte b = if b = addr then v else s.readByte b :=
  Memory.read_write s.memory addr v b

/-! ### The two mutators of the flags -/

/-- `SetC` sets the Carry (rule R23). -/
@[simp] theorem setC_flagC (s : State) (b : Bool) : (s.setC b).flagC = b := by
  rw [flagC, setC_statusResidual, BitVec.getLsbD_or, BitVec.getLsbD_and]
  cases b <;> simp [bitByte]

/-- `SetC` changes bit 0 of `status_residual` and clears bits 1, 5 and 7; every other bit stays (rule R23: "Only bit 0
changes", bits 1, 5 and 7 being 0 in every state that rule R17 allows). -/
theorem setC_residual_bit (s : State) (b : Bool) (n : Nat) (hn : n = 2 ∨ n = 3 ∨ n = 4 ∨ n = 6) :
    (s.setC b).statusResidual.getLsbD n = s.statusResidual.getLsbD n := by
  rw [setC_statusResidual, BitVec.getLsbD_or, BitVec.getLsbD_and]
  rcases hn with rfl | rfl | rfl | rfl <;> cases b <;> simp [bitByte]

@[simp] theorem setC_flagV (s : State) (b : Bool) : (s.setC b).flagV = s.flagV := setC_residual_bit s b 6 (by decide)
@[simp] theorem setC_flagB (s : State) (b : Bool) : (s.setC b).flagB = s.flagB := setC_residual_bit s b 4 (by decide)
@[simp] theorem setC_flagH (s : State) (b : Bool) : (s.setC b).flagH = s.flagH := setC_residual_bit s b 3 (by decide)
@[simp] theorem setC_flagI (s : State) (b : Bool) : (s.setC b).flagI = s.flagI := setC_residual_bit s b 2 (by decide)

/-- N after `SetNZ` is bit 7 of the value, since bit 8 becomes 0 (rule R21). -/
@[simp] theorem setNZ_flagN (s : State) (v : Byte) : (s.setNZ v).flagN = v.getLsbD 7 := by
  simp [flagN]

/-- Z after `SetNZ` says whether the value is 0 (rule R21). -/
@[simp] theorem setNZ_flagZ (s : State) (v : Byte) : (s.setNZ v).flagZ = (v == 0#8) := by
  rw [flagZ, setNZ_nzAccumulator]
  revert v
  decide

end State

end Sys2Proof.Machine
end

