-- ==== Sys2Proof/Laws/Exec.lean ====
section
/-! SUPPORT. What the shared operations of the families do, and the inversion lemma of `exec`: every instruction ends in one
of seven shapes. -/

namespace Sys2Proof.Machine

namespace State

/-! ### The shared operations, each as updates of the state -/

theorem load_eq (s : State) (k : Reg) (v : Byte) : s.load k v = (s.setReg k v).setNZ v := rfl

theorem store_eq (s : State) (ea : Address) (v : Byte) : s.store ea v = s.writeByte ea v := rfl

theorem logical_eq (s : State) (op : Byte → Byte → Byte) (m : Byte) : s.logical op m = s.load .a (op s.a m) := rfl

theorem modifyReg_eq (s : State) (op : Byte → Byte) (k : Reg) : s.modifyReg op k = s.load k (op (s.reg k)) := rfl

theorem modifyMem_eq (s : State) (op : Byte → Byte) (ea : Address) :
    s.modifyMem op ea = (s.writeByte ea (op (s.readByte ea))).setNZ (op (s.readByte ea)) := rfl

theorem shiftA_eq (s : State) (op : Byte → Bool → Byte × Bool) :
    s.shiftA op = ((s.setReg .a (op s.a s.flagC).1).setC (op s.a s.flagC).2).setNZ (op s.a s.flagC).1 := rfl

theorem shiftMem_eq (s : State) (op : Byte → Bool → Byte × Bool) (ea : Address) :
    s.shiftMem op ea =
      ((s.writeByte ea (op (s.readByte ea) s.flagC).1).setC (op (s.readByte ea) s.flagC).2).setNZ
        (op (s.readByte ea) s.flagC).1 := rfl

theorem branchIf_true (s : State) (rel : Byte) : s.branchIf true rel = s.setPc (s.relTarget rel) := rfl

theorem branchIf_false (s : State) (rel : Byte) : s.branchIf false rel = s.refundUntaken := rfl

/-- A branch writes `pc` and `cycles` and nothing else. -/
theorem branchIf_frame (s : State) (cond : Bool) (rel : Byte) :
    s.branchIf cond rel = { s with pc := (s.branchIf cond rel).pc, cycles := (s.branchIf cond rel).cycles } := by
  cases cond <;> rfl

end State

/-- What an instruction can do to the state once its operand bytes are consumed: write a register and N, Z (Load, Logical,
Increment/Decrement of a register); store a byte (Store); store a byte and write N, Z (Increment/Decrement of memory);
write the accumulator, C and N, Z (Shift of A); store a byte and write C and N, Z (Shift of memory); write `pc` (a taken
branch); give back 2 cycles (an untaken branch). -/
inductive Effect : State → State → Prop
  | register (s : State) (k : Reg) (v : Byte) : Effect s ((s.setReg k v).setNZ v)
  | store (s : State) (ea : Address) (v : Byte) : Effect s (s.writeByte ea v)
  | modify (s : State) (ea : Address) (v : Byte) : Effect s ((s.writeByte ea v).setNZ v)
  | shiftA (s : State) (v : Byte) (c : Bool) : Effect s (((s.setReg .a v).setC c).setNZ v)
  | shiftMem (s : State) (ea : Address) (v : Byte) (c : Bool) : Effect s (((s.writeByte ea v).setC c).setNZ v)
  | jump (s : State) (target : Address) : Effect s (s.setPc target)
  | untaken (s : State) : Effect s s.refundUntaken

theorem Effect.branchIf (s : State) (cond : Bool) (rel : Byte) : Effect s (s.branchIf cond rel) := by
  cases cond
  · exact .untaken s
  · exact .jump s _

/-- Consuming no operand byte leaves the state as it is. -/
theorem State.skipOperands_zero (s : State) : s.skipOperands 0 = s := by
  refine State.ext_fields ?_ rfl rfl rfl rfl rfl rfl rfl rfl rfl
  simp

/-- Inversion of `exec`: it answers a next state, which is one effect on the state past the operand bytes. -/
theorem exec_effect (i : Instr) (s : State) : ∃ t, exec i s = .next t ∧ Effect (s.skipOperands i.operandBytes.length) t := by
  cases i
  case movDpA | movAbsA | movAbsIdxXA | movAbsIdxYA | movDpX | movAbsX | movDpY | movAbsY | movDpImm =>
    exact ⟨_, rfl, .store _ _ _⟩
  case incDp | incAbs | decDp | decAbs => exact ⟨_, rfl, .modify _ _ _⟩
  case incA | incX | incY | decA | decX | decY =>
    exact ⟨_, rfl, by rw [Instr.operandBytes, List.length_nil, State.skipOperands_zero]; exact .register _ _ _⟩
  case aslA | lsrA | rolA | rorA =>
    exact ⟨_, rfl, by rw [Instr.operandBytes, List.length_nil, State.skipOperands_zero]; exact .shiftA _ _ _⟩
  case aslDp | aslAbs | lsrDp | lsrAbs | rolDp | rolAbs | rorDp | rorAbs => exact ⟨_, rfl, .shiftMem _ _ _ _⟩
  case bra => exact ⟨_, rfl, .jump _ _⟩
  case bpl | bmi | bvc | bvs | bcc | bcs | bne | beq => exact ⟨_, rfl, .branchIf _ _ _⟩
  all_goals exact ⟨_, rfl, .register _ _ _⟩

/-- The effect of an instruction that answers a given next state. -/
theorem effect_of_exec {i : Instr} {s t : State} (h : exec i s = .next t) :
    Effect (s.skipOperands i.operandBytes.length) t := by
  obtain ⟨t', ht', he⟩ := exec_effect i s
  rw [h] at ht'
  cases ht'
  exact he

/-! ### One instruction -/

theorem perform_effect (T : Config.CostTable) (i : Instr) (s : State) :
    ∃ t, perform T i s = .next t ∧ Effect ((s.commit (T i)).skipOperands i.operandBytes.length) t :=
  exec_effect i (s.commit (T i))

/-- Inversion of a step with a next state: the decoder found an instruction at `pc`, and the step performs it. -/
theorem stepWith_next {T : Config.CostTable} {s t : State} (h : stepWith T s = .next t) :
    ∃ i rest, s.peek = .ok (i, rest) ∧ perform T i s = .next t := by
  unfold stepWith at h
  split at h
  · next i rest hp => exact ⟨i, rest, hp, h⟩
  · cases h

/-- A step that stops stops with the fault of rule R220, on a byte the decoder refuses. -/
theorem stepWith_fault {T : Config.CostTable} {s : State} {f : Fault} (h : stepWith T s = .fault f) :
    f = s.unimplemented ∧ ∃ e, s.peek = .error e := by
  unfold stepWith at h
  split at h
  · next i rest hp =>
    obtain ⟨t, ht, -⟩ := perform_effect T i s
    rw [ht] at h
    cases h
  · next e hp =>
    cases h
    exact ⟨rfl, e, hp⟩

theorem stepWith_of_peek {T : Config.CostTable} {s : State} {i : Instr} {rest : List Byte} (h : s.peek = .ok (i, rest)) :
    stepWith T s = perform T i s := by
  rw [stepWith, h]

end Sys2Proof.Machine
end

