-- ==== Sys2Proof/Laws/PerInstr.lean ====
section
/-! SUPPORT. Facts about every instruction as syntax, one lemma per constructor. -/

namespace Sys2Proof.Laws.Shape

/-- An instruction is well formed, its words are as many bytes as its format says (rule R61, column "length"), and its opcode
byte is assigned (rule R63). -/
def Statement (i : Instr) : Prop :=
  i.wellFormed = true ∧ i.length = i.format.length ∧ assigned i.opcode = true

theorem movAImm (imm : Byte) : Statement (.movAImm imm) := ⟨rfl, rfl, rfl⟩
theorem movADp (dp : Byte) : Statement (.movADp dp) := ⟨rfl, rfl, rfl⟩
theorem movAAbs (addr : Address) : Statement (.movAAbs addr) := ⟨rfl, rfl, rfl⟩
theorem movAAbsIdxX (addr : Address) : Statement (.movAAbsIdxX addr) := ⟨rfl, rfl, rfl⟩
theorem movAAbsIdxY (addr : Address) : Statement (.movAAbsIdxY addr) := ⟨rfl, rfl, rfl⟩
theorem movXImm (imm : Byte) : Statement (.movXImm imm) := ⟨rfl, rfl, rfl⟩
theorem movXDp (dp : Byte) : Statement (.movXDp dp) := ⟨rfl, rfl, rfl⟩
theorem movXAbs (addr : Address) : Statement (.movXAbs addr) := ⟨rfl, rfl, rfl⟩
theorem movYImm (imm : Byte) : Statement (.movYImm imm) := ⟨rfl, rfl, rfl⟩
theorem movYDp (dp : Byte) : Statement (.movYDp dp) := ⟨rfl, rfl, rfl⟩
theorem movYAbs (addr : Address) : Statement (.movYAbs addr) := ⟨rfl, rfl, rfl⟩
theorem movDpA (dp : Byte) : Statement (.movDpA dp) := ⟨rfl, rfl, rfl⟩
theorem movAbsA (addr : Address) : Statement (.movAbsA addr) := ⟨rfl, rfl, rfl⟩
theorem movAbsIdxXA (addr : Address) : Statement (.movAbsIdxXA addr) := ⟨rfl, rfl, rfl⟩
theorem movAbsIdxYA (addr : Address) : Statement (.movAbsIdxYA addr) := ⟨rfl, rfl, rfl⟩
theorem movDpX (dp : Byte) : Statement (.movDpX dp) := ⟨rfl, rfl, rfl⟩
theorem movAbsX (addr : Address) : Statement (.movAbsX addr) := ⟨rfl, rfl, rfl⟩
theorem movDpY (dp : Byte) : Statement (.movDpY dp) := ⟨rfl, rfl, rfl⟩
theorem movAbsY (addr : Address) : Statement (.movAbsY addr) := ⟨rfl, rfl, rfl⟩
theorem movDpImm (dp imm : Byte) : Statement (.movDpImm dp imm) := ⟨rfl, rfl, rfl⟩
theorem orAImm (imm : Byte) : Statement (.orAImm imm) := ⟨rfl, rfl, rfl⟩
theorem orADp (dp : Byte) : Statement (.orADp dp) := ⟨rfl, rfl, rfl⟩
theorem orAAbs (addr : Address) : Statement (.orAAbs addr) := ⟨rfl, rfl, rfl⟩
theorem orAAbsIdxX (addr : Address) : Statement (.orAAbsIdxX addr) := ⟨rfl, rfl, rfl⟩
theorem orAAbsIdxY (addr : Address) : Statement (.orAAbsIdxY addr) := ⟨rfl, rfl, rfl⟩
theorem andAImm (imm : Byte) : Statement (.andAImm imm) := ⟨rfl, rfl, rfl⟩
theorem andADp (dp : Byte) : Statement (.andADp dp) := ⟨rfl, rfl, rfl⟩
theorem andAAbs (addr : Address) : Statement (.andAAbs addr) := ⟨rfl, rfl, rfl⟩
theorem andAAbsIdxX (addr : Address) : Statement (.andAAbsIdxX addr) := ⟨rfl, rfl, rfl⟩
theorem andAAbsIdxY (addr : Address) : Statement (.andAAbsIdxY addr) := ⟨rfl, rfl, rfl⟩
theorem eorAImm (imm : Byte) : Statement (.eorAImm imm) := ⟨rfl, rfl, rfl⟩
theorem eorADp (dp : Byte) : Statement (.eorADp dp) := ⟨rfl, rfl, rfl⟩
theorem eorAAbs (addr : Address) : Statement (.eorAAbs addr) := ⟨rfl, rfl, rfl⟩
theorem eorAAbsIdxX (addr : Address) : Statement (.eorAAbsIdxX addr) := ⟨rfl, rfl, rfl⟩
theorem eorAAbsIdxY (addr : Address) : Statement (.eorAAbsIdxY addr) := ⟨rfl, rfl, rfl⟩
theorem incA : Statement .incA := ⟨rfl, rfl, rfl⟩
theorem incX : Statement .incX := ⟨rfl, rfl, rfl⟩
theorem incY : Statement .incY := ⟨rfl, rfl, rfl⟩
theorem incDp (dp : Byte) : Statement (.incDp dp) := ⟨rfl, rfl, rfl⟩
theorem incAbs (addr : Address) : Statement (.incAbs addr) := ⟨rfl, rfl, rfl⟩
theorem decA : Statement .decA := ⟨rfl, rfl, rfl⟩
theorem decX : Statement .decX := ⟨rfl, rfl, rfl⟩
theorem decY : Statement .decY := ⟨rfl, rfl, rfl⟩
theorem decDp (dp : Byte) : Statement (.decDp dp) := ⟨rfl, rfl, rfl⟩
theorem decAbs (addr : Address) : Statement (.decAbs addr) := ⟨rfl, rfl, rfl⟩
theorem aslA : Statement .aslA := ⟨rfl, rfl, rfl⟩
theorem aslDp (dp : Byte) : Statement (.aslDp dp) := ⟨rfl, rfl, rfl⟩
theorem aslAbs (addr : Address) : Statement (.aslAbs addr) := ⟨rfl, rfl, rfl⟩
theorem lsrA : Statement .lsrA := ⟨rfl, rfl, rfl⟩
theorem lsrDp (dp : Byte) : Statement (.lsrDp dp) := ⟨rfl, rfl, rfl⟩
theorem lsrAbs (addr : Address) : Statement (.lsrAbs addr) := ⟨rfl, rfl, rfl⟩
theorem rolA : Statement .rolA := ⟨rfl, rfl, rfl⟩
theorem rolDp (dp : Byte) : Statement (.rolDp dp) := ⟨rfl, rfl, rfl⟩
theorem rolAbs (addr : Address) : Statement (.rolAbs addr) := ⟨rfl, rfl, rfl⟩
theorem rorA : Statement .rorA := ⟨rfl, rfl, rfl⟩
theorem rorDp (dp : Byte) : Statement (.rorDp dp) := ⟨rfl, rfl, rfl⟩
theorem rorAbs (addr : Address) : Statement (.rorAbs addr) := ⟨rfl, rfl, rfl⟩
theorem bra (rel : Byte) : Statement (.bra rel) := ⟨rfl, rfl, rfl⟩
theorem bpl (rel : Byte) : Statement (.bpl rel) := ⟨rfl, rfl, rfl⟩
theorem bmi (rel : Byte) : Statement (.bmi rel) := ⟨rfl, rfl, rfl⟩
theorem bvc (rel : Byte) : Statement (.bvc rel) := ⟨rfl, rfl, rfl⟩
theorem bvs (rel : Byte) : Statement (.bvs rel) := ⟨rfl, rfl, rfl⟩
theorem bcc (rel : Byte) : Statement (.bcc rel) := ⟨rfl, rfl, rfl⟩
theorem bcs (rel : Byte) : Statement (.bcs rel) := ⟨rfl, rfl, rfl⟩
theorem bne (rel : Byte) : Statement (.bne rel) := ⟨rfl, rfl, rfl⟩
theorem beq (rel : Byte) : Statement (.beq rel) := ⟨rfl, rfl, rfl⟩

/-- The same of every instruction. -/
theorem all (i : Instr) : Statement i := by
  cases i <;> exact ⟨rfl, rfl, rfl⟩

end Sys2Proof.Laws.Shape
end

