-- ==== Sys2Proof/Laws/Run.lean ====
section
/-! SUPPORT. The rounds of the execution loop, one lemma per way a round can go, and what one instruction adds to
`cycles`. -/

namespace Sys2Proof.Machine

theorem check_of_error {T : Config.CostTable} {target : Nat} {s : State} {e : DecodeError} (h : s.peek = .error e) :
    check T target s = .stop (.fault s.unimplemented) := by
  rw [check, h]

theorem check_of_ok {T : Config.CostTable} {target : Nat} {s : State} {i : Instr} {rest : List Byte}
    (h : s.peek = .ok (i, rest)) :
    check T target s = if s.cycles + T i > target then .stop .budgetStop else .execute i := by
  rw [check, h]

/-- The check lets an instruction execute exactly when the decoder finds it at `pc` and its table cost fits. -/
theorem check_execute {T : Config.CostTable} {target : Nat} {s : State} {i : Instr} :
    check T target s = .execute i ↔ (∃ rest, s.peek = .ok (i, rest)) ∧ s.cycles + T i ≤ target := by
  rcases hp : s.peek with e | ⟨j, rest⟩
  · simp [check_of_error hp]
  · rw [check_of_ok hp]
    constructor
    · intro h
      split at h
      · cases h
      · cases h
        exact ⟨⟨rest, rfl⟩, by omega⟩
    · rintro ⟨⟨_, h⟩, hle⟩
      cases h
      exact if_neg (by omega)

@[simp] theorem runLoop_zero (T : Config.CostTable) (target : Nat) (s : State) :
    runLoop T target 0 s = (.refused .inadmissibleCostTable, s) := rfl

theorem runLoop_stop {T : Config.CostTable} {target : Nat} {s : State} {o : RunOutcome} (h : check T target s = .stop o)
    (rounds : Nat) : runLoop T target (rounds + 1) s = (o, s) := by
  rw [runLoop, h]

theorem runLoop_execute {T : Config.CostTable} {target : Nat} {s t : State} {i : Instr}
    (h : check T target s = .execute i) (ht : perform T i s = .next t) (rounds : Nat) :
    runLoop T target (rounds + 1) s = runLoop T target rounds t := by
  simp only [runLoop, h, ht]

theorem tracedLoop_stop {T : Config.CostTable} {target : Nat} {s : State} {o : RunOutcome} (h : check T target s = .stop o)
    (rounds : Nat) : tracedLoop T target (rounds + 1) s = ([], o, s) := by
  rw [tracedLoop, h]

theorem tracedLoop_execute {T : Config.CostTable} {target : Nat} {s t : State} {i : Instr}
    (h : check T target s = .execute i) (ht : perform T i s = .next t) (rounds : Nat) :
    tracedLoop T target (rounds + 1) s =
      (s.traceRecord :: (tracedLoop T target rounds t).1, (tracedLoop T target rounds t).2) := by
  simp only [tracedLoop, h, ht]

/-- The induction over the rounds of the loop, once: what every step keeps, the loop keeps, whatever the cost table. -/
theorem runLoop_preserves {T : Config.CostTable} {P : State → Prop} (hstep : ∀ s t, P s → stepWith T s = .next t → P t)
    (target rounds : Nat) {s : State} (hs : P s) : P (runLoop T target rounds s).2 := by
  induction rounds generalizing s with
  | zero => exact hs
  | succ rounds ih =>
    rcases hc : check T target s with o | i
    · rw [runLoop_stop hc]
      exact hs
    · obtain ⟨t, ht, -⟩ := perform_effect T i s
      obtain ⟨⟨rest, hp⟩, -⟩ := check_execute.1 hc
      rw [runLoop_execute hc ht]
      exact ih (hstep s t hs (by rw [stepWith_of_peek hp, ht]))

/-- An instruction that is not a conditional branch leaves `cycles` alone in its execute phase; a conditional branch
leaves it alone or takes 2 off (rules R24, R209). -/
theorem exec_cycles {i : Instr} {s t : State} (h : exec i s = .next t) :
    t.cycles = s.cycles ∨ (i.conditional = true ∧ t.cycles = s.cycles - 2) := by
  cases i
  case bpl | bmi | bvc | bvs | bcc | bcs | bne | beq =>
    cases h
    rw [State.branchIf]
    split
    · exact .inl rfl
    · exact .inr ⟨rfl, rfl⟩
  all_goals
    cases h
    exact .inl rfl

end Sys2Proof.Machine
end

