-- ==== Sys2Proof/Laws/Session.lean ====
section
/-! SUPPORT. `State.reset` as a construction, and the memory that `construct` makes of an image. -/

namespace Sys2Proof.Machine

/-- The state after reset is what `construct` makes of zero registers and of the memory that lists nothing. -/
theorem State.reset_eq_construct : State.reset = constructWith ⟨0x0000#16, 0x00#8, 0x00#8, 0x00#8, 0x00#8, 0x00#8⟩ [] := by
  decide

/-- The memory of the state after reset is in canonical form. -/
theorem State.reset_memory_wf : State.reset.memory.wf = true := rfl

/-- The memory that `construct` makes is in canonical form. -/
theorem construct_memory_wf (snap : Snapshot) : (construct snap).memory.wf = true :=
  Memory.wfFrom_ofBytes _ (Nat.zero_le _) (by simp)

/-- An image of zero bytes is the memory that lists nothing. -/
theorem Memory.ofBytes_unlisted (n key : Nat) : Memory.ofBytes key (List.replicate n Config.unlistedByte) = [] := by
  induction n generalizing key with
  | zero => rfl
  | succ n ih => simp [List.replicate_succ, Memory.ofBytes, Memory.cell, ih]

/-- Every memory operation of the machine keeps the canonical form. -/
theorem State.writeByte_memory_wf {s : State} (h : s.memory.wf = true) (addr : Address) (v : Byte) :
    (s.writeByte addr v).memory.wf = true := Memory.wf_write h addr v

theorem State.writeBytes_memory_wf (bytes : List Byte) {s : State} (h : s.memory.wf = true) (addr : Address) :
    (s.writeBytes addr bytes).memory.wf = true := by
  induction bytes generalizing s addr with
  | nil => exact h
  | cons v bytes ih => exact ih (State.writeByte_memory_wf h addr v) _

end Sys2Proof.Machine
end

