-- ==== Sys2Proof/Tests/Slice0.lean ====
section
/-! SUPPORT. Tests. Every expected result is taken from spec/: the vectors of spec/95_test_vectors.md (the number in a name
is the vector's), the opcode table of rule R63 with the formats of rule R61, and the examples in the rules' own text.
Then, for every statement with hypotheses, a witness that meets them. -/

namespace Sys2Proof.Tests

open Sys2Proof Machine

/-! ### Well-formedness: no term of `Instr` is ill formed (WellFormed.lean says why), so no check can refuse one -/

theorem test_every_operand_value_is_well_formed :
    ([Instr.movDpImm 0xFF 0xFF, .movAAbsIdxY 0xFFFF, .bra 0x80, .incA].all Instr.wellFormed) = true := by decide

/-! ### Decoding: each of the 66 words, written out from rule R63 (the opcode byte in bits, then the operand bytes of the
format of rule R61), decodes to the instruction it stands for; the four bytes 0x00 0xEF 0xFF 0x0F, whose legacy meanings
must not be given (rules R64, R231, R221), do not -/

/-- The decoder reads this instruction and nothing is left. -/
def reads (bytes : List Byte) (i : Instr) : Bool := decide (decode bytes = .ok (i, []))

theorem test_decode_load :
    (reads [0b11101000, 0xA5] (.movAImm 0xA5) &&
      reads [0b11100100, 0xA5] (.movADp 0xA5) &&
      reads [0b11100101, 0x34, 0x12] (.movAAbs 0x1234) &&
      reads [0b11110101, 0x34, 0x12] (.movAAbsIdxX 0x1234) &&
      reads [0b11110110, 0x34, 0x12] (.movAAbsIdxY 0x1234) &&
      reads [0b11001101, 0xA5] (.movXImm 0xA5) &&
      reads [0b11111000, 0xA5] (.movXDp 0xA5) &&
      reads [0b11101001, 0x34, 0x12] (.movXAbs 0x1234) &&
      reads [0b10001101, 0xA5] (.movYImm 0xA5) &&
      reads [0b11101011, 0xA5] (.movYDp 0xA5) &&
      reads [0b11101100, 0x34, 0x12] (.movYAbs 0x1234)) = true := by decide

theorem test_decode_store :
    (reads [0b11000100, 0xA5] (.movDpA 0xA5) &&
      reads [0b11000101, 0x34, 0x12] (.movAbsA 0x1234) &&
      reads [0b11010101, 0x34, 0x12] (.movAbsIdxXA 0x1234) &&
      reads [0b11010110, 0x34, 0x12] (.movAbsIdxYA 0x1234) &&
      reads [0b11011000, 0xA5] (.movDpX 0xA5) &&
      reads [0b11001001, 0x34, 0x12] (.movAbsX 0x1234) &&
      reads [0b11001011, 0xA5] (.movDpY 0xA5) &&
      reads [0b11001100, 0x34, 0x12] (.movAbsY 0x1234) &&
      reads [0b10001111, 0xAA, 0x30] (.movDpImm 0x30 0xAA)) = true := by decide

theorem test_decode_logical :
    (reads [0b00001000, 0xA5] (.orAImm 0xA5) &&
      reads [0b00000100, 0xA5] (.orADp 0xA5) &&
      reads [0b00000101, 0x34, 0x12] (.orAAbs 0x1234) &&
      reads [0b00010101, 0x34, 0x12] (.orAAbsIdxX 0x1234) &&
      reads [0b00010110, 0x34, 0x12] (.orAAbsIdxY 0x1234) &&
      reads [0b00101000, 0xA5] (.andAImm 0xA5) &&
      reads [0b00100100, 0xA5] (.andADp 0xA5) &&
      reads [0b00100101, 0x34, 0x12] (.andAAbs 0x1234) &&
      reads [0b00110101, 0x34, 0x12] (.andAAbsIdxX 0x1234) &&
      reads [0b00110110, 0x34, 0x12] (.andAAbsIdxY 0x1234) &&
      reads [0b01001000, 0xA5] (.eorAImm 0xA5) &&
      reads [0b01000100, 0xA5] (.eorADp 0xA5) &&
      reads [0b01000101, 0x34, 0x12] (.eorAAbs 0x1234) &&
      reads [0b01010101, 0x34, 0x12] (.eorAAbsIdxX 0x1234) &&
      reads [0b01010110, 0x34, 0x12] (.eorAAbsIdxY 0x1234)) = true := by decide

theorem test_decode_incDec :
    (reads [0b10111100] (.incA) &&
      reads [0b00111101] (.incX) &&
      reads [0b11111100] (.incY) &&
      reads [0b10101011, 0xA5] (.incDp 0xA5) &&
      reads [0b10101100, 0x34, 0x12] (.incAbs 0x1234) &&
      reads [0b10011100] (.decA) &&
      reads [0b00011101] (.decX) &&
      reads [0b11011100] (.decY) &&
      reads [0b10001011, 0xA5] (.decDp 0xA5) &&
      reads [0b10001100, 0x34, 0x12] (.decAbs 0x1234)) = true := by decide

theorem test_decode_shift :
    (reads [0b00011100] (.aslA) &&
      reads [0b00001011, 0xA5] (.aslDp 0xA5) &&
      reads [0b00001100, 0x34, 0x12] (.aslAbs 0x1234) &&
      reads [0b01011100] (.lsrA) &&
      reads [0b01001011, 0xA5] (.lsrDp 0xA5) &&
      reads [0b01001100, 0x34, 0x12] (.lsrAbs 0x1234) &&
      reads [0b00111100] (.rolA) &&
      reads [0b00101011, 0xA5] (.rolDp 0xA5) &&
      reads [0b00101100, 0x34, 0x12] (.rolAbs 0x1234) &&
      reads [0b01111100] (.rorA) &&
      reads [0b01101011, 0xA5] (.rorDp 0xA5) &&
      reads [0b01101100, 0x34, 0x12] (.rorAbs 0x1234)) = true := by decide

theorem test_decode_branch :
    (reads [0b00101111, 0xA5] (.bra 0xA5) &&
      reads [0b00010000, 0xA5] (.bpl 0xA5) &&
      reads [0b00110000, 0xA5] (.bmi 0xA5) &&
      reads [0b01010000, 0xA5] (.bvc 0xA5) &&
      reads [0b01110000, 0xA5] (.bvs 0xA5) &&
      reads [0b10010000, 0xA5] (.bcc 0xA5) &&
      reads [0b10110000, 0xA5] (.bcs 0xA5) &&
      reads [0b11010000, 0xA5] (.bne 0xA5) &&
      reads [0b11110000, 0xA5] (.beq 0xA5)) = true := by decide

theorem test_decode_unassigned :
    ([0x00, 0xEF, 0xFF, 0x0F, 0x7F].all fun op : Byte => decide (decode [op, 0x12, 0x34] = .error (.unassignedOpcode op))) =
      true := by decide

theorem test_decode_truncated : decode [0xE5, 0x34] = .error .truncated := by decide

/-- The bits of a table word are numbered from the opcode byte up (spec/opcode_table.json): 0x1234E5 is `MOV A,!$1234`. -/
theorem test_decodeTableWord : decodeTableWord 24 0x1234E5 = some (.movAAbs 0x1234) ∧ decodeTableWord 8 0xFFFFE8 = some (.movAImm 0x00) ∧
    decodeTableWord 8 0x00 = none := by decide

theorem test_encode : encode (.movDpImm 0x30 0xAA) = [0x8F, 0xAA, 0x30] ∧ encode (.orAAbs 0x1234) = [0x05, 0x34, 0x12] := by
  decide

/-! ### One step (spec/95_test_vectors.md section 2), at most two vectors an instruction -/

/-- A state as the host constructs it (spec/95_test_vectors.md, conventions): registers, memory cells, then program bytes
at `pc`. -/
def start (r : Registers) (cells : List (Address × Byte)) (bytes : List Byte) : State :=
  (cells.foldl (fun s c => s.writeByte c.1 c.2) (constructWith r [])).writeBytes r.pc bytes

/-- One step gives these registers and status byte, these memory cells, and adds this many cycles. -/
def stepGives (s : State) (r : Registers) (cells : List (Address × Byte)) (cycles : Nat) : Bool :=
  match step s with
  | .next t =>
    decide (t.snapshot = r) && decide (t.cycles = s.cycles + cycles) && cells.all fun c => decide (t.readByte c.1 = c.2)
  | _ => false

/-! #### Load -/

theorem test_LD3_movAImm : stepGives (start ⟨0x0200, 0xEF, 0x00, 0x00, 0x00, 0x4B⟩ [] [0xE8, 0x7F])
    ⟨0x0202, 0xEF, 0x7F, 0x00, 0x00, 0x49⟩ [] 2 = true := by decide
theorem test_LD4_movADp : stepGives (start ⟨0x0200, 0xEF, 0x00, 0x00, 0x00, 0x20⟩ [(0x0110, 0x12)] [0xE4, 0x10])
    ⟨0x0202, 0xEF, 0x12, 0x00, 0x00, 0x20⟩ [(0x0110, 0x12)] 3 = true := by decide
theorem test_LD6_movADp : stepGives (start ⟨0x0200, 0xEF, 0x00, 0x00, 0x00, 0x20⟩ [(0x01FF, 0x80)] [0xE4, 0xFF])
    ⟨0x0202, 0xEF, 0x80, 0x00, 0x00, 0xA0⟩ [(0x01FF, 0x80)] 3 = true := by decide
theorem test_LD7_movAAbs : stepGives (start ⟨0x0200, 0xEF, 0x99, 0x00, 0x00, 0x00⟩ [(0x1234, 0x00)] [0xE5, 0x34, 0x12])
    ⟨0x0203, 0xEF, 0x00, 0x00, 0x00, 0x02⟩ [(0x1234, 0x00)] 4 = true := by decide
theorem test_LD8_movAAbsIdxX : stepGives (start ⟨0x0200, 0xEF, 0x00, 0x20, 0x00, 0x00⟩ [(0x0010, 0x77)] [0xF5, 0xF0, 0xFF])
    ⟨0x0203, 0xEF, 0x77, 0x20, 0x00, 0x00⟩ [(0x0010, 0x77)] 5 = true := by decide
theorem test_LD9_movAAbsIdxY : stepGives (start ⟨0x0200, 0xEF, 0x00, 0x00, 0xFF, 0x00⟩ [(0x10FF, 0x01)] [0xF6, 0x00, 0x10])
    ⟨0x0203, 0xEF, 0x01, 0x00, 0xFF, 0x00⟩ [(0x10FF, 0x01)] 5 = true := by decide
theorem test_LD10_movXImm : stepGives (start ⟨0x0200, 0xEF, 0x00, 0x00, 0x00, 0x00⟩ [] [0xCD, 0xFF])
    ⟨0x0202, 0xEF, 0x00, 0xFF, 0x00, 0x80⟩ [] 2 = true := by decide
theorem test_LD11_movXDp : stepGives (start ⟨0x0200, 0xEF, 0x00, 0x11, 0x00, 0x00⟩ [] [0xF8, 0x20])
    ⟨0x0202, 0xEF, 0x00, 0x00, 0x00, 0x02⟩ [] 3 = true := by decide
theorem test_LD12_movXAbs : stepGives (start ⟨0x0200, 0xEF, 0x00, 0x00, 0x00, 0x00⟩ [(0x8000, 0x7F)] [0xE9, 0x00, 0x80])
    ⟨0x0203, 0xEF, 0x00, 0x7F, 0x00, 0x00⟩ [(0x8000, 0x7F)] 4 = true := by decide
theorem test_LD13_movYImm : stepGives (start ⟨0x0200, 0xEF, 0x00, 0x00, 0x44, 0x00⟩ [] [0x8D, 0x00])
    ⟨0x0202, 0xEF, 0x00, 0x00, 0x00, 0x02⟩ [] 2 = true := by decide
theorem test_LD14_movYDp : stepGives (start ⟨0x0200, 0xEF, 0x00, 0x00, 0x00, 0x20⟩ [(0x0105, 0x90)] [0xEB, 0x05])
    ⟨0x0202, 0xEF, 0x00, 0x00, 0x90, 0xA0⟩ [(0x0105, 0x90)] 3 = true := by decide
theorem test_LD15_movYAbs : stepGives (start ⟨0x0200, 0xEF, 0x00, 0x00, 0x00, 0x00⟩ [(0xFFFF, 0x42)] [0xEC, 0xFF, 0xFF])
    ⟨0x0203, 0xEF, 0x00, 0x00, 0x42, 0x00⟩ [(0xFFFF, 0x42)] 4 = true := by decide
theorem test_LD16_movAImm : stepGives (start ⟨0xFFFF, 0xEF, 0x00, 0x00, 0x00, 0x00⟩ [] [0xE8, 0x99])
    ⟨0x0001, 0xEF, 0x99, 0x00, 0x00, 0x80⟩ [] 2 = true := by decide
theorem test_LD17_movAAbs : stepGives (start ⟨0xFFFE, 0xEF, 0x00, 0x00, 0x00, 0x00⟩ [(0x0300, 0x5A)] [0xE5, 0x00, 0x03])
    ⟨0x0001, 0xEF, 0x5A, 0x00, 0x00, 0x00⟩ [(0x0300, 0x5A)] 4 = true := by decide

/-! #### Store -/

theorem test_ST1_movDpA : stepGives (start ⟨0x0200, 0xEF, 0x00, 0x00, 0x00, 0x80⟩ [] [0xC4, 0x20])
    ⟨0x0202, 0xEF, 0x00, 0x00, 0x00, 0x80⟩ [(0x0020, 0x00)] 4 = true := by decide
theorem test_ST2_movDpA : stepGives (start ⟨0x0200, 0xEF, 0x03, 0x00, 0x00, 0x20⟩ [] [0xC4, 0x20])
    ⟨0x0202, 0xEF, 0x03, 0x00, 0x00, 0x20⟩ [(0x0020, 0x00), (0x0120, 0x03)] 4 = true := by decide
theorem test_ST3_movAbsA : stepGives (start ⟨0x0200, 0xEF, 0xBC, 0x00, 0x00, 0x00⟩ [] [0xC5, 0x07, 0x05])
    ⟨0x0203, 0xEF, 0xBC, 0x00, 0x00, 0x00⟩ [(0x0507, 0xBC)] 5 = true := by decide
theorem test_ST4_movAbsIdxXA : stepGives (start ⟨0x0200, 0xEF, 0x55, 0x01, 0x00, 0x00⟩ [] [0xD5, 0xFF, 0xFF])
    ⟨0x0203, 0xEF, 0x55, 0x01, 0x00, 0x00⟩ [(0x0000, 0x55)] 6 = true := by decide
theorem test_ST5_movAbsIdxYA : stepGives (start ⟨0x0200, 0xEF, 0x4E, 0x00, 0x02, 0x00⟩ [] [0xD6, 0x00, 0x04])
    ⟨0x0203, 0xEF, 0x4E, 0x00, 0x02, 0x00⟩ [(0x0402, 0x4E)] 6 = true := by decide
theorem test_ST6_movDpX : stepGives (start ⟨0x0200, 0xEF, 0x00, 0x7F, 0x00, 0x20⟩ [] [0xD8, 0xFF])
    ⟨0x0202, 0xEF, 0x00, 0x7F, 0x00, 0x20⟩ [(0x01FF, 0x7F)] 4 = true := by decide
theorem test_ST7_movAbsX : stepGives (start ⟨0x0200, 0xEF, 0x00, 0x00, 0x00, 0x00⟩ [(0x2000, 0xEE)] [0xC9, 0x00, 0x20])
    ⟨0x0203, 0xEF, 0x00, 0x00, 0x00, 0x00⟩ [(0x2000, 0x00)] 5 = true := by decide
theorem test_ST8_movDpY : stepGives (start ⟨0x0200, 0xEF, 0x00, 0x00, 0x80, 0x00⟩ [] [0xCB, 0x00])
    ⟨0x0202, 0xEF, 0x00, 0x00, 0x80, 0x00⟩ [(0x0000, 0x80)] 4 = true := by decide
theorem test_ST9_movAbsY : stepGives (start ⟨0x0200, 0xEF, 0x00, 0x00, 0x11, 0x00⟩ [] [0xCC, 0x34, 0x12])
    ⟨0x0203, 0xEF, 0x00, 0x00, 0x11, 0x00⟩ [(0x1234, 0x11)] 5 = true := by decide
theorem test_ST10_movDpImm : stepGives (start ⟨0x0200, 0xEF, 0x00, 0x00, 0x00, 0x00⟩ [] [0x8F, 0xAA, 0x30])
    ⟨0x0203, 0xEF, 0x00, 0x00, 0x00, 0x00⟩ [(0x0030, 0xAA), (0x00AA, 0x00)] 5 = true := by decide
theorem test_ST11_movDpImm : stepGives (start ⟨0x0200, 0xEF, 0x00, 0x00, 0x00, 0x23⟩ [(0x01FF, 0x77)] [0x8F, 0x00, 0xFF])
    ⟨0x0203, 0xEF, 0x00, 0x00, 0x00, 0x23⟩ [(0x01FF, 0x00)] 5 = true := by decide
theorem test_ST12_movAbsA : stepGives (start ⟨0x0200, 0xEF, 0xBC, 0x00, 0x00, 0x00⟩ [] [0xC5, 0x03, 0x02])
    ⟨0x0203, 0xEF, 0xBC, 0x00, 0x00, 0x00⟩ [(0x0203, 0xBC)] 5 = true := by decide

/-! #### Logical -/

theorem test_LG1_orAImm : stepGives (start ⟨0x0200, 0xEF, 0xF0, 0x00, 0x00, 0x00⟩ [] [0x08, 0x0F])
    ⟨0x0202, 0xEF, 0xFF, 0x00, 0x00, 0x80⟩ [] 2 = true := by decide
theorem test_LG2_orAImm : stepGives (start ⟨0x0200, 0xEF, 0x00, 0x00, 0x00, 0x01⟩ [] [0x08, 0x00])
    ⟨0x0202, 0xEF, 0x00, 0x00, 0x00, 0x03⟩ [] 2 = true := by decide
theorem test_LG3_orADp : stepGives (start ⟨0x0200, 0xEF, 0x01, 0x00, 0x00, 0x00⟩ [(0x0010, 0x80)] [0x04, 0x10])
    ⟨0x0202, 0xEF, 0x81, 0x00, 0x00, 0x80⟩ [(0x0010, 0x80)] 3 = true := by decide
theorem test_LG4_orAAbs : stepGives (start ⟨0x0200, 0xEF, 0x0A, 0x00, 0x00, 0x00⟩ [(0x3000, 0x50)] [0x05, 0x00, 0x30])
    ⟨0x0203, 0xEF, 0x5A, 0x00, 0x00, 0x00⟩ [(0x3000, 0x50)] 4 = true := by decide
theorem test_LG5_orAAbsIdxX : stepGives (start ⟨0x0200, 0xEF, 0x00, 0x05, 0x00, 0x00⟩ [(0x3005, 0x00)] [0x15, 0x00, 0x30])
    ⟨0x0203, 0xEF, 0x00, 0x05, 0x00, 0x02⟩ [(0x3005, 0x00)] 5 = true := by decide
theorem test_LG6_orAAbsIdxY : stepGives (start ⟨0x0200, 0xEF, 0x10, 0x00, 0x02, 0x00⟩ [(0x0001, 0x01)] [0x16, 0xFF, 0xFF])
    ⟨0x0203, 0xEF, 0x11, 0x00, 0x02, 0x00⟩ [(0x0001, 0x01)] 5 = true := by decide
theorem test_LG7_andAImm : stepGives (start ⟨0x0200, 0xEF, 0xF0, 0x00, 0x00, 0x00⟩ [] [0x28, 0x0F])
    ⟨0x0202, 0xEF, 0x00, 0x00, 0x00, 0x02⟩ [] 2 = true := by decide
theorem test_LG8_andAImm : stepGives (start ⟨0x0200, 0xEF, 0xF0, 0x00, 0x00, 0x00⟩ [] [0x28, 0x3C])
    ⟨0x0202, 0xEF, 0x30, 0x00, 0x00, 0x00⟩ [] 2 = true := by decide
theorem test_LG9_andADp : stepGives (start ⟨0x0200, 0xEF, 0xFF, 0x00, 0x00, 0x20⟩ [(0x0110, 0x81)] [0x24, 0x10])
    ⟨0x0202, 0xEF, 0x81, 0x00, 0x00, 0xA0⟩ [(0x0110, 0x81)] 3 = true := by decide
theorem test_LG10_andAAbs : stepGives (start ⟨0x0200, 0xEF, 0xAA, 0x00, 0x00, 0x00⟩ [(0x3000, 0x0F)] [0x25, 0x00, 0x30])
    ⟨0x0203, 0xEF, 0x0A, 0x00, 0x00, 0x00⟩ [(0x3000, 0x0F)] 4 = true := by decide
theorem test_LG11_andAAbsIdxX : stepGives (start ⟨0x0200, 0xEF, 0xFF, 0xFF, 0x00, 0x00⟩ [(0x30FF, 0x80)] [0x35, 0x00, 0x30])
    ⟨0x0203, 0xEF, 0x80, 0xFF, 0x00, 0x80⟩ [(0x30FF, 0x80)] 5 = true := by decide
theorem test_LG12_andAAbsIdxY : stepGives (start ⟨0x0200, 0xEF, 0x7F, 0x00, 0x01, 0x00⟩ [(0x3001, 0xFF)] [0x36, 0x00, 0x30])
    ⟨0x0203, 0xEF, 0x7F, 0x00, 0x01, 0x00⟩ [(0x3001, 0xFF)] 5 = true := by decide
theorem test_LG13_eorAImm : stepGives (start ⟨0x0200, 0xEF, 0xFF, 0x00, 0x00, 0x00⟩ [] [0x48, 0xFF])
    ⟨0x0202, 0xEF, 0x00, 0x00, 0x00, 0x02⟩ [] 2 = true := by decide
theorem test_LG14_eorAImm : stepGives (start ⟨0x0200, 0xEF, 0x00, 0x00, 0x00, 0x00⟩ [] [0x48, 0x80])
    ⟨0x0202, 0xEF, 0x80, 0x00, 0x00, 0x80⟩ [] 2 = true := by decide
theorem test_LG15_eorADp : stepGives (start ⟨0x0200, 0xEF, 0x55, 0x00, 0x00, 0x00⟩ [(0x0010, 0xAA)] [0x44, 0x10])
    ⟨0x0202, 0xEF, 0xFF, 0x00, 0x00, 0x80⟩ [(0x0010, 0xAA)] 3 = true := by decide
theorem test_LG16_eorAAbs : stepGives (start ⟨0x0200, 0xEF, 0x0F, 0x00, 0x00, 0x00⟩ [(0x3000, 0x0F)] [0x45, 0x00, 0x30])
    ⟨0x0203, 0xEF, 0x00, 0x00, 0x00, 0x02⟩ [(0x3000, 0x0F)] 4 = true := by decide
theorem test_LG17_eorAAbsIdxX : stepGives (start ⟨0x0200, 0xEF, 0x01, 0x02, 0x00, 0x00⟩ [(0x3002, 0x03)] [0x55, 0x00, 0x30])
    ⟨0x0203, 0xEF, 0x02, 0x02, 0x00, 0x00⟩ [(0x3002, 0x03)] 5 = true := by decide
theorem test_LG18_eorAAbsIdxY : stepGives (start ⟨0x0200, 0xEF, 0x80, 0x00, 0x03, 0x49⟩ [(0x3003, 0x01)] [0x56, 0x00, 0x30])
    ⟨0x0203, 0xEF, 0x81, 0x00, 0x03, 0xC9⟩ [(0x3003, 0x01)] 5 = true := by decide

/-! #### Increment and Decrement -/

theorem test_ID1_incA : stepGives (start ⟨0x0200, 0xEF, 0xFF, 0x00, 0x00, 0x00⟩ [] [0xBC])
    ⟨0x0201, 0xEF, 0x00, 0x00, 0x00, 0x02⟩ [] 2 = true := by decide
theorem test_ID2_incA : stepGives (start ⟨0x0200, 0xEF, 0x7F, 0x00, 0x00, 0x00⟩ [] [0xBC])
    ⟨0x0201, 0xEF, 0x80, 0x00, 0x00, 0x80⟩ [] 2 = true := by decide
theorem test_ID3_decA : stepGives (start ⟨0x0200, 0xEF, 0x00, 0x00, 0x00, 0x01⟩ [] [0x9C])
    ⟨0x0201, 0xEF, 0xFF, 0x00, 0x00, 0x81⟩ [] 2 = true := by decide
theorem test_ID4_decA : stepGives (start ⟨0x0200, 0xEF, 0x01, 0x00, 0x00, 0x00⟩ [] [0x9C])
    ⟨0x0201, 0xEF, 0x00, 0x00, 0x00, 0x02⟩ [] 2 = true := by decide
theorem test_ID5_incX : stepGives (start ⟨0x0200, 0xEF, 0x00, 0xFF, 0x00, 0x00⟩ [] [0x3D])
    ⟨0x0201, 0xEF, 0x00, 0x00, 0x00, 0x02⟩ [] 2 = true := by decide
theorem test_ID6_decX : stepGives (start ⟨0x0200, 0xEF, 0x00, 0x01, 0x00, 0x00⟩ [] [0x1D])
    ⟨0x0201, 0xEF, 0x00, 0x00, 0x00, 0x02⟩ [] 2 = true := by decide
theorem test_ID7_decX : stepGives (start ⟨0x0200, 0xEF, 0x00, 0x00, 0x00, 0x00⟩ [] [0x1D])
    ⟨0x0201, 0xEF, 0x00, 0xFF, 0x00, 0x80⟩ [] 2 = true := by decide
theorem test_ID8_incY : stepGives (start ⟨0x0200, 0xEF, 0x00, 0x00, 0x7F, 0x00⟩ [] [0xFC])
    ⟨0x0201, 0xEF, 0x00, 0x00, 0x80, 0x80⟩ [] 2 = true := by decide
theorem test_ID9_decY : stepGives (start ⟨0x0200, 0xEF, 0x00, 0x00, 0x00, 0x00⟩ [] [0xDC])
    ⟨0x0201, 0xEF, 0x00, 0x00, 0xFF, 0x80⟩ [] 2 = true := by decide
theorem test_ID10_incDp : stepGives (start ⟨0x0200, 0xEF, 0x00, 0x00, 0x00, 0x00⟩ [(0x0022, 0xFF)] [0xAB, 0x22])
    ⟨0x0202, 0xEF, 0x00, 0x00, 0x00, 0x02⟩ [(0x0022, 0x00)] 4 = true := by decide
theorem test_ID11_incDp : stepGives (start ⟨0x0200, 0xEF, 0x00, 0x00, 0x00, 0x20⟩ [(0x0022, 0x10), (0x0122, 0x7F)] [0xAB, 0x22])
    ⟨0x0202, 0xEF, 0x00, 0x00, 0x00, 0xA0⟩ [(0x0022, 0x10), (0x0122, 0x80)] 4 = true := by decide
theorem test_ID12_incAbs : stepGives (start ⟨0x0200, 0xEF, 0x00, 0x00, 0x00, 0x00⟩ [(0x4000, 0x00)] [0xAC, 0x00, 0x40])
    ⟨0x0203, 0xEF, 0x00, 0x00, 0x00, 0x00⟩ [(0x4000, 0x01)] 5 = true := by decide
theorem test_ID13_decDp : stepGives (start ⟨0x0200, 0xEF, 0x00, 0x00, 0x00, 0x00⟩ [(0x0022, 0x00)] [0x8B, 0x22])
    ⟨0x0202, 0xEF, 0x00, 0x00, 0x00, 0x80⟩ [(0x0022, 0xFF)] 4 = true := by decide
theorem test_ID14_decAbs : stepGives (start ⟨0x0200, 0xEF, 0x00, 0x00, 0x00, 0x00⟩ [(0x4000, 0x80)] [0x8C, 0x00, 0x40])
    ⟨0x0203, 0xEF, 0x00, 0x00, 0x00, 0x00⟩ [(0x4000, 0x7F)] 5 = true := by decide
theorem test_ID15_incAbs : stepGives (start ⟨0x0200, 0xEF, 0x00, 0x00, 0x00, 0x00⟩ [] [0xAC, 0x00, 0x02])
    ⟨0x0203, 0xEF, 0x00, 0x00, 0x00, 0x80⟩ [(0x0200, 0xAD)] 5 = true := by decide

/-! #### Shift and rotate -/

theorem test_SH1_lsrDp : stepGives (start ⟨0x0200, 0xEF, 0x00, 0x00, 0x00, 0x00⟩ [(0x0010, 0xFF)] [0x4B, 0x10])
    ⟨0x0202, 0xEF, 0x00, 0x00, 0x00, 0x01⟩ [(0x0010, 0x7F)] 4 = true := by decide
theorem test_SH2_lsrA : stepGives (start ⟨0x0200, 0xEF, 0x01, 0x00, 0x00, 0x00⟩ [] [0x5C])
    ⟨0x0201, 0xEF, 0x00, 0x00, 0x00, 0x03⟩ [] 2 = true := by decide
theorem test_SH3_lsrA : stepGives (start ⟨0x0200, 0xEF, 0x80, 0x00, 0x00, 0x01⟩ [] [0x5C])
    ⟨0x0201, 0xEF, 0x40, 0x00, 0x00, 0x00⟩ [] 2 = true := by decide
theorem test_SH4_lsrAbs : stepGives (start ⟨0x0200, 0xEF, 0x00, 0x00, 0x00, 0x00⟩ [(0x4000, 0x02)] [0x4C, 0x00, 0x40])
    ⟨0x0203, 0xEF, 0x00, 0x00, 0x00, 0x00⟩ [(0x4000, 0x01)] 5 = true := by decide
theorem test_SH5_aslA : stepGives (start ⟨0x0200, 0xEF, 0x80, 0x00, 0x00, 0x00⟩ [] [0x1C])
    ⟨0x0201, 0xEF, 0x00, 0x00, 0x00, 0x03⟩ [] 2 = true := by decide
theorem test_SH6_aslA : stepGives (start ⟨0x0200, 0xEF, 0x40, 0x00, 0x00, 0x01⟩ [] [0x1C])
    ⟨0x0201, 0xEF, 0x80, 0x00, 0x00, 0x80⟩ [] 2 = true := by decide
theorem test_SH7_aslDp : stepGives (start ⟨0x0200, 0xEF, 0x00, 0x00, 0x00, 0x00⟩ [(0x0020, 0x80)] [0x0B, 0x20])
    ⟨0x0202, 0xEF, 0x00, 0x00, 0x00, 0x03⟩ [(0x0020, 0x00)] 4 = true := by decide
theorem test_SH8_aslAbs : stepGives (start ⟨0x0200, 0xEF, 0x00, 0x00, 0x00, 0x00⟩ [(0x4000, 0xFF)] [0x0C, 0x00, 0x40])
    ⟨0x0203, 0xEF, 0x00, 0x00, 0x00, 0x81⟩ [(0x4000, 0xFE)] 5 = true := by decide
theorem test_SH9_rolA : stepGives (start ⟨0x0200, 0xEF, 0x80, 0x00, 0x00, 0x01⟩ [] [0x3C])
    ⟨0x0201, 0xEF, 0x01, 0x00, 0x00, 0x01⟩ [] 2 = true := by decide
theorem test_SH11_rolA : stepGives (start ⟨0x0200, 0xEF, 0x80, 0x00, 0x00, 0x00⟩ [] [0x3C])
    ⟨0x0201, 0xEF, 0x00, 0x00, 0x00, 0x03⟩ [] 2 = true := by decide
theorem test_SH12_rolDp : stepGives (start ⟨0x0200, 0xEF, 0x00, 0x00, 0x00, 0x01⟩ [(0x0021, 0xC1)] [0x2B, 0x21])
    ⟨0x0202, 0xEF, 0x00, 0x00, 0x00, 0x81⟩ [(0x0021, 0x83)] 4 = true := by decide
theorem test_SH13_rolAbs : stepGives (start ⟨0x0200, 0xEF, 0x00, 0x00, 0x00, 0x00⟩ [(0x4000, 0x55)] [0x2C, 0x00, 0x40])
    ⟨0x0203, 0xEF, 0x00, 0x00, 0x00, 0x80⟩ [(0x4000, 0xAA)] 5 = true := by decide
theorem test_SH14_rorA : stepGives (start ⟨0x0200, 0xEF, 0x01, 0x00, 0x00, 0x00⟩ [] [0x7C])
    ⟨0x0201, 0xEF, 0x00, 0x00, 0x00, 0x03⟩ [] 2 = true := by decide
theorem test_SH15_rorA : stepGives (start ⟨0x0200, 0xEF, 0x00, 0x00, 0x00, 0x01⟩ [] [0x7C])
    ⟨0x0201, 0xEF, 0x80, 0x00, 0x00, 0x80⟩ [] 2 = true := by decide
theorem test_SH17_rorDp : stepGives (start ⟨0x0200, 0xEF, 0x00, 0x00, 0x00, 0x01⟩ [(0x0021, 0x02)] [0x6B, 0x21])
    ⟨0x0202, 0xEF, 0x00, 0x00, 0x00, 0x80⟩ [(0x0021, 0x81)] 4 = true := by decide
theorem test_SH18_rorAbs : stepGives (start ⟨0x0200, 0xEF, 0x00, 0x00, 0x00, 0x00⟩ [(0x4000, 0x03)] [0x6C, 0x00, 0x40])
    ⟨0x0203, 0xEF, 0x00, 0x00, 0x00, 0x01⟩ [(0x4000, 0x01)] 5 = true := by decide
theorem test_SH19_lsrDp : stepGives (start ⟨0x0200, 0xEF, 0x00, 0x00, 0x00, 0x6D⟩ [(0x0110, 0x01)] [0x4B, 0x10])
    ⟨0x0202, 0xEF, 0x00, 0x00, 0x00, 0x6F⟩ [(0x0110, 0x00), (0x0010, 0x00)] 4 = true := by decide

/-! #### Branch -/

theorem test_BR1_bra : stepGives (start ⟨0x0200, 0xEF, 0x00, 0x00, 0x00, 0x00⟩ [] [0x2F, 0xF6])
    ⟨0x01F8, 0xEF, 0x00, 0x00, 0x00, 0x00⟩ [] 4 = true := by decide
theorem test_BR6_bra : stepGives (start ⟨0xFFFE, 0xEF, 0x00, 0x00, 0x00, 0x00⟩ [] [0x2F, 0x10])
    ⟨0x0010, 0xEF, 0x00, 0x00, 0x00, 0x00⟩ [] 4 = true := by decide
theorem test_BR8_beq : stepGives (start ⟨0x0200, 0xEF, 0x00, 0x00, 0x00, 0x00⟩ [] [0xF0, 0x05])
    ⟨0x0202, 0xEF, 0x00, 0x00, 0x00, 0x00⟩ [] 2 = true := by decide
theorem test_BR10_bne : stepGives (start ⟨0x0206, 0xEF, 0x00, 0x00, 0x00, 0x00⟩ [] [0xD0, 0xFC])
    ⟨0x0204, 0xEF, 0x00, 0x00, 0x00, 0x00⟩ [] 4 = true := by decide
theorem test_BR11_bne : stepGives (start ⟨0x0206, 0xEF, 0x00, 0x00, 0x00, 0x02⟩ [] [0xD0, 0xFC])
    ⟨0x0208, 0xEF, 0x00, 0x00, 0x00, 0x02⟩ [] 2 = true := by decide
theorem test_BR12_bpl : stepGives (start ⟨0x0200, 0xEF, 0x00, 0x00, 0x00, 0x00⟩ [] [0x10, 0x05])
    ⟨0x0207, 0xEF, 0x00, 0x00, 0x00, 0x00⟩ [] 4 = true := by decide
theorem test_BR15_bmi : stepGives (start ⟨0x0200, 0xEF, 0x00, 0x00, 0x00, 0x00⟩ [] [0x30, 0xFE])
    ⟨0x0202, 0xEF, 0x00, 0x00, 0x00, 0x00⟩ [] 2 = true := by decide
theorem test_BR16_bvc : stepGives (start ⟨0x0200, 0xEF, 0x00, 0x00, 0x00, 0x00⟩ [] [0x50, 0x10])
    ⟨0x0212, 0xEF, 0x00, 0x00, 0x00, 0x00⟩ [] 4 = true := by decide
theorem test_BR17_bvc : stepGives (start ⟨0x0200, 0xEF, 0x00, 0x00, 0x00, 0x40⟩ [] [0x50, 0x10])
    ⟨0x0202, 0xEF, 0x00, 0x00, 0x00, 0x40⟩ [] 2 = true := by decide
theorem test_BR18_bvs : stepGives (start ⟨0x0200, 0xEF, 0x00, 0x00, 0x00, 0x40⟩ [] [0x70, 0x80])
    ⟨0x0182, 0xEF, 0x00, 0x00, 0x00, 0x40⟩ [] 4 = true := by decide
theorem test_BR19_bvs : stepGives (start ⟨0x0200, 0xEF, 0x00, 0x00, 0x00, 0x00⟩ [] [0x70, 0x80])
    ⟨0x0202, 0xEF, 0x00, 0x00, 0x00, 0x00⟩ [] 2 = true := by decide
theorem test_BR20_bcc : stepGives (start ⟨0x0200, 0xEF, 0x00, 0x00, 0x00, 0x00⟩ [] [0x90, 0x02])
    ⟨0x0204, 0xEF, 0x00, 0x00, 0x00, 0x00⟩ [] 4 = true := by decide
theorem test_BR21_bcc : stepGives (start ⟨0x0200, 0xEF, 0x00, 0x00, 0x00, 0x01⟩ [] [0x90, 0x02])
    ⟨0x0202, 0xEF, 0x00, 0x00, 0x00, 0x01⟩ [] 2 = true := by decide
theorem test_BR22_bcs : stepGives (start ⟨0x0200, 0xEF, 0x00, 0x00, 0x00, 0x01⟩ [] [0xB0, 0x02])
    ⟨0x0204, 0xEF, 0x00, 0x00, 0x00, 0x01⟩ [] 4 = true := by decide
theorem test_BR23_bcs : stepGives (start ⟨0x0200, 0xEF, 0x00, 0x00, 0x00, 0x00⟩ [] [0xB0, 0x02])
    ⟨0x0202, 0xEF, 0x00, 0x00, 0x00, 0x00⟩ [] 2 = true := by decide
theorem test_BR25_bmi : stepGives (start ⟨0x0200, 0xEF, 0x00, 0x00, 0x00, 0x82⟩ [] [0x30, 0x10])
    ⟨0x0212, 0xEF, 0x00, 0x00, 0x00, 0x82⟩ [] 4 = true := by decide
theorem test_BR26_bpl : stepGives (start ⟨0x0200, 0xEF, 0x00, 0x00, 0x00, 0x82⟩ [] [0x10, 0x10])
    ⟨0x0202, 0xEF, 0x00, 0x00, 0x00, 0x82⟩ [] 2 = true := by decide
theorem test_BR28_beq : stepGives (start ⟨0xFFFF, 0xEF, 0x00, 0x00, 0x00, 0x02⟩ [] [0xF0, 0x10])
    ⟨0x0011, 0xEF, 0x00, 0x00, 0x00, 0x02⟩ [] 4 = true := by decide
/-! ### The loop, the fault, construction (sections 2.7 to 2.9) -/

/-- The program of section 2.8. -/
def budgetProgram : State :=
  start ⟨0x0200, 0xEF, 0x00, 0x00, 0x00, 0x00⟩ [] [0xE8, 0x00, 0xE8, 0x01, 0xE8, 0x02, 0xF0, 0x10, 0xFF]

/-- A run gives this outcome, this many instructions, and these `pc`, A and `cycles`. -/
def runGives (s : State) (budget : Nat) (o : RunOutcome) (n : Nat) (pc : Address) (a : Byte) (cycles : Nat) : Bool :=
  let (outcome, t) := run defaultCycleCost budget s
  decide (outcome = o) && decide (executed defaultCycleCost budget s = n) && decide (t.pc = pc) && decide (t.a = a) &&
    decide (t.cycles = cycles)

theorem test_RN1_budget_zero : runGives budgetProgram 0 .budgetStop 0 0x0200 0x00 0 = true := by decide
theorem test_RN3_exact_fit : runGives budgetProgram 2 .budgetStop 1 0x0202 0x00 2 = true := by decide
theorem test_RN8_taken_cost_is_tested : runGives budgetProgram 9 .budgetStop 3 0x0206 0x02 6 = true := by decide
theorem test_RN9_fault_after_untaken_branch :
    runGives budgetProgram 10 (.fault (.unimplementedInstruction 0x0208 0xFF)) 4 0x0208 0x02 8 = true := by decide
theorem test_FT1_fault_precedes_budget :
    run defaultCycleCost 0 (start ⟨0x0200, 0xEF, 0x00, 0x00, 0x00, 0x00⟩ [] [0xFF]) =
      (.fault (.unimplementedInstruction 0x0200 0xFF), start ⟨0x0200, 0xEF, 0x00, 0x00, 0x00, 0x00⟩ [] [0xFF]) := by decide
theorem test_FT3_precise : runGives (start ⟨0x0200, 0xEF, 0x00, 0x00, 0x00, 0x00⟩ [] [0xE8, 0x01, 0x00]) 5
    (.fault (.unimplementedInstruction 0x0202 0x00)) 1 0x0202 0x01 2 = true := by decide

/-- The rows of the table of section 2.7: status byte in, `nz_accumulator`, `page_base`, `status_residual`. -/
theorem test_construct_status_rows :
    ([(0x00, 0x001, 0x000, 0x00), (0x02, 0x000, 0x000, 0x00), (0x80, 0x101, 0x000, 0x00), (0x82, 0x100, 0x000, 0x00),
      (0x20, 0x001, 0x100, 0x00), (0x5D, 0x001, 0x000, 0x5D), (0xA2, 0x100, 0x100, 0x00), (0xFF, 0x100, 0x100, 0x5D)].all
      fun (row : Byte × NineBits × NineBits × Byte) =>
        let s := constructWith ⟨0x0000, 0x00, 0x00, 0x00, 0x00, row.1⟩ []
        decide (s.nzAccumulator = row.2.1) && decide (s.pageBase = row.2.2.1) && decide (s.statusResidual = row.2.2.2) &&
          decide (s.statusByte = row.1)) = true := by decide

/-- The example of rule R48: 0xFFF0 + X with X = 0x20 addresses 0x0010. -/
theorem test_indexed_wraps : State.eaAbsX { State.reset with x := 0x20 } 0xFFF0 = 0x0010 := by decide

/-- `withFetchWord` places the instruction where the next step runs it; from the state after reset nothing else changes. -/
theorem test_withFetchWord :
    step (State.reset.withFetchWord 8 0xBC) =
      exec .incA { State.reset.withFetchWord 8 0xBC with pc := 0x0001, cycles := 2 } := by rfl

theorem test_reset_then_fault : step State.reset = .fault (.unimplementedInstruction 0x0000 0x00) := by rfl

/-! ### Witnesses: for each statement with hypotheses, states and operands that meet them all -/

/-- A small state: the registers 0x11, 0x22, 0x33, P and C set, a byte on page 1, and program bytes at 0x0200. -/
def here (bytes : List Byte) : State := start ⟨0x0200, 0xEF, 0x11, 0x22, 0x33, 0x21⟩ [(0x0110, 0x80)] bytes

/-- A cost table that meets rule R3: 3 for every opcode. -/
theorem three_admissible : Admissible fun _ => 3 :=
  ⟨fun _ _ _ => rfl, fun _ => Nat.le_add_left 1 2, fun _ _ => Nat.le_refl 3⟩

/-- The state after a step, for the witnesses (a step that stops leaves it as it is). -/
def after (s : State) : State :=
  match step s with
  | .next t => t
  | _ => s

theorem witness_EncodeOfDecodeIsTheBytes :
    decode [0xF6, 0xFF, 0xFF, 0x5A] = .ok (.movAAbsIdxY 0xFFFF, [0x5A]) ∧ decode [0xBC] = .ok (.incA, []) := by decide

theorem witness_UnassignedOpcodesAreTheListed :
    assigned 0x00 = false ∧ assigned 0x03 = false ∧ assigned 0x04 = true ∧ assigned 0x05 = true ∧ assigned 0x06 = false ∧
      assigned 0xFC = true ∧ assigned 0xFD = false ∧ assigned 0xFF = false := by decide

theorem witness_LengthIsFixedByTheOpcode : assigned 0x0F = false ∧ assigned 0xEF = false := by decide

theorem witness_StatusByteIsDerivedFromTheFlagSources :
    State.reset.pageBase = 0x000#9 ∧ (here []).pageBase = 0x100#9 := by decide

theorem witness_SetCChangesTheCarryAlone :
    (here []).statusResidual &&& 0xA2#8 = 0x00#8 ∧ State.reset.statusResidual &&& 0xA2#8 = 0x00#8 ∧ 7 ≠ 0 := by decide

/-- All four kinds of N and Z that a construction leaves, and a step from each. -/
theorem witness_EveryStepKeepsTheInvariants :
    ([0x00, 0x02, 0x80, 0xA2].all fun status : Byte =>
      let s := start ⟨0xFFFF, 0xEF, 0x11, 0x22, 0x33, status⟩ [] [0xC4, 0xFF]
      decide s.Inv && match step s with | .next t => decide (t.readByte 0x00FF = 0x11) || decide (t.readByte 0x01FF = 0x11) | _ => false) =
      true := by decide

theorem witness_EveryTransactionKeepsTheInvariants :
    (here []).Inv ∧
    transact (fun _ => 3) (.memWrite 0x0110 0x00) (some (here [])) = .next ((here []).writeByte 0x0110 0x00, .done) ∧
    transact (fun _ => 3) .snapshot (some State.reset) =
      .next (State.reset, .view ⟨0x0000, 0x00, 0x00, 0x00, 0x00, 0x00⟩) := ⟨by decide, rfl, rfl⟩

theorem witness_EveryTransactionKeepsTheInvariants_construct (snap : Snapshot) :
    transact (fun _ => 3) (.construct snap) none = .next (construct snap, .done) := rfl

/-- Bit 8 set before, cleared by a load, kept by a store. -/
theorem witness_NoStepSetsBitEightOfTheAccumulator :
    (let s := start ⟨0x0200, 0xEF, 0x00, 0x00, 0x00, 0x80⟩ [] [0xE8, 0x7F]
     s.nzAccumulator = 0x101#9 ∧ stepWith defaultCycleCost s = .next (after s) ∧ (after s).nzAccumulator = 0x07F#9) ∧
    (let s := start ⟨0x0200, 0xEF, 0x00, 0x00, 0x00, 0x80⟩ [] [0xC4, 0x10]
     stepWith defaultCycleCost s = .next (after s) ∧ (after s).nzAccumulator = 0x101#9) :=
  ⟨⟨by decide, rfl, by decide⟩, rfl, by decide⟩

theorem witness_MemWriteChangesOneCell : (0x0000 : Address) ≠ 0xFFFF := by decide

/-- Two memories written in two orders, one of them through a cell that holds the unlisted byte again at the end. -/
theorem witness_EqualReadsAreEqualMemories :
    let m := ((Memory.write [] 0x0005 0x02).write 0xFFFF 0x03).write 0x0005 0x00
    let n := Memory.write [] 0xFFFF 0x03
    m.wf = true ∧ n.wf = true ∧ (∀ a : Address, m.read a = n.read a) ∧ m ≠ [] :=
  ⟨by decide, by decide, fun _ => rfl, by decide⟩

theorem witness_EffectiveAddressesOfTheOperandForms :
    (here []).pageBase = 0x100#9 ∧ (here []).eaDp 0xFF = 0x01FF ∧ State.reset.pageBase = 0x000#9 ∧
      State.reset.eaDp 0xFF = 0x00FF ∧ (here []).eaAbsY (littleEndian 0xFF 0xFF) = 0x0032 := by decide

theorem witness_BranchAlwaysGoesToTheRelativeTarget :
    exec (.bra 0x80) State.reset = .next { State.reset with pc := 0xFF81 } ∧
    exec (.bra 0x7F) State.reset = .next { State.reset with pc := 0x0080 } := ⟨rfl, rfl⟩

/-- `exec` of an instruction answers a next state here, and it is in this class. -/
def completesIn (c : InstrClass) (i : Instr) (s : State) : Bool :=
  decide (i.cls = c) && match exec i s with | .next _ => true | _ => false

theorem witness_LoadAndLogicalFrame : (completesIn .load (.movADp 0x10) (here []) && completesIn .load (.movXImm 0x00) (here []) &&
    completesIn .logical (.eorAAbsIdxX 0xFFFF) (here [])) = true := by decide
theorem witness_StoreFrame : (completesIn .store (.movDpImm 0xFF 0x01) (here []) &&
    completesIn .store (.movAbsIdxYA 0xFFFF) (here [])) = true := by decide
theorem witness_IncrementAndDecrementFrame : (completesIn .incDec .decY (here []) &&
    completesIn .incDec (.incDp 0x10) (here [])) = true ∧ storeAddress (.incDp 0x10) (here []) = some 0x0110 ∧
    storeAddress .decY (here []) = none := by decide
theorem witness_ShiftFrame : (completesIn .shift .rorA (here []) && completesIn .shift (.aslDp 0x10) (here [])) = true ∧
    storeAddress (.aslDp 0x10) (here []) = some 0x0110 ∧ storeAddress .rorA (here []) = none := by decide
theorem witness_BranchFrame : (completesIn .branch (.bra 0xFE) (here []) && completesIn .branch (.bcs 0x00) (here []) &&
    completesIn .branch (.bcc 0x00) (here [])) = true := by decide

/-- A register that takes 0x00, a register that takes 0x80, a cell that takes 0x00 (0x80 shifted left). -/
theorem witness_FlagsFollowTheByteWritten :
    (∃ t, exec (.movXImm 0x00) (here []) = .next t ∧ destReg (.movXImm 0x00) = some .x ∧ t.reg .x = 0x00) ∧
    (∃ t, exec (.movADp 0x10) (here []) = .next t ∧ destReg (.movADp 0x10) = some .a ∧ t.reg .a = 0x80) ∧
    (∃ t, exec (.aslDp 0x10) (here []) = .next t ∧ storeAddress (.aslDp 0x10) (here []) = some 0x0110 ∧
      t.readByte 0x0110 = 0x00) := ⟨⟨_, rfl, by decide⟩, ⟨_, rfl, by decide⟩, ⟨_, rfl, by decide⟩⟩

theorem witness_OnlyShiftsWriteTheCarry :
    let s := here [0xAB, 0x10]
    s.peek = .ok (.incDp 0x10, [0x00]) ∧ (Instr.incDp 0x10).cls ≠ .shift ∧ stepWith defaultCycleCost s = .next (after s) :=
  ⟨by decide, by decide, rfl⟩

theorem witness_SpAndTheInertFlagsAreNeverRead :
    (0x1C#8 &&& 0x1C#8 = 0x1C#8) ∧ (0x00#8 &&& 0x1C#8 = 0x00#8) ∧
    exec .rolA (here []) = .next { here [] with a := 0x23, nzAccumulator := 0x023, statusResidual := 0x00 } :=
  ⟨by decide, by decide, rfl⟩

/-- N set by bit 8 in one state and by bit 7 in the other, Z clear in both. -/
theorem witness_HiddenAccumulatorIsUnobservable :
    State.SameButNZ { here [0xF0, 0x10] with nzAccumulator := 0x101 } { here [0xF0, 0x10] with nzAccumulator := 0x0FF } ∧
    (∃ t, exec (.beq 0x10) { here [0xF0, 0x10] with nzAccumulator := 0x101 } = .next t) ∧
    stepWith defaultCycleCost { here [0x00] with nzAccumulator := 0x101 } = .fault (.unimplementedInstruction 0x0200 0x00) :=
  ⟨by decide, ⟨_, rfl⟩, by rfl⟩

theorem witness_EffectsDoNotDependOnCycles :
    exec (.bcc 0x10) { here [] with cycles := 4 } = .next { here [] with pc := 0x0201, cycles := 2 } ∧
    stepWith defaultCycleCost (here [0xE4, 0x10]) = .next (after (here [0xE4, 0x10])) := ⟨rfl, rfl⟩

theorem witness_EffectsReadNoOtherByte :
    State.AgreeOn (loadAddress (.incDp 0x10) State.reset).toList State.reset { State.reset with memory := [(0x0011, 0x55)] } ∧
    (∃ t, exec (.incDp 0x10) State.reset = .next t) ∧
    storeAddress (.incDp 0x10) State.reset = some 0x0010 :=
  ⟨⟨rfl, fun a ha => by cases List.mem_singleton.1 ha; rfl⟩, ⟨_, rfl⟩, by decide⟩

theorem witness_AccessesAreOrderedAndBounded :
    loadAddress (.rorDp 0xFF) (here []) = some 0x01FF ∧ storeAddress (.rorDp 0xFF) (here []) = some 0x01FF := by decide

/-- C is set: `BCS` is taken, `BCC` is not. -/
theorem witness_BranchConditionsFollowTheOpcodeBits :
    (Instr.bcs 0x10).conditional = true ∧ (∃ t, exec (.bcs 0x10) (here []) = .next t) ∧ (here []).flagC = (Instr.bcs 0x10).opcode.getLsbD 5 ∧
    (Instr.bcc 0x10).conditional = true ∧ (∃ t, exec (.bcc 0x10) (here []) = .next t) ∧ (here []).flagC ≠ (Instr.bcc 0x10).opcode.getLsbD 5 :=
  ⟨rfl, ⟨_, rfl⟩, by decide, rfl, ⟨_, rfl⟩, by decide⟩

theorem witness_NineRotationsRestoreAccumulatorAndCarry : (Instr.rolA = .rolA ∨ Instr.rolA = .rorA) ∧
    (Instr.rorA = .rolA ∨ Instr.rorA = .rorA) := ⟨.inl rfl, .inr rfl⟩

theorem witness_StepRunsTheDecodedInstruction :
    let s := here [0x8F, 0xAA, 0x30]
    decode [s.readByte s.pc, s.readByte (s.pc + 1#16), s.readByte (s.pc + 2#16)] = .ok (.movDpImm 0x30 0xAA, []) := by decide

/-- An instruction that straddles the end of the address space. -/
theorem witness_StepRunsTheWordsAtPc :
    let s := start ⟨0xFFFE, 0xEF, 0x00, 0x00, 0x00, 0x00⟩ [] [0xE5, 0x00, 0x03]
    ∀ k (h : k < (encode (.movAAbs 0x0300)).length), s.readByte (s.pc + BitVec.ofNat 16 k) = (encode (.movAAbs 0x0300))[k] := by
  decide

theorem witness_StepRunsTheStoredFetchWord :
    decodeTableWord 8 0xE8 = some (.movAImm 0x00) ∧ decodeTableWord 24 0x30AA8F = some (.movDpImm 0x30 0xAA) := by decide

theorem witness_FetchedBytesAreTheDecodedWords : (here [0x1C]).peek = .ok (.aslA, [0x00, 0x00]) := by decide

theorem witness_StepFaultsExactlyOnUnassignedOpcodes :
    assigned ((here [0x00]).readByte (here [0x00]).pc) = false ∧ assigned ((here [0xFF]).readByte (here [0xFF]).pc) = false ∧
      assigned ((here [0x04]).readByte (here [0x04]).pc) = true := by decide

theorem witness_OnlyTakenBranchesMovePcElsewhere :
    (let s := here [0x2F, 0xFE]
     s.peek = .ok (.bra 0xFE, [0x00]) ∧ stepWith defaultCycleCost s = .next (after s) ∧ (after s).pc = 0x0200) ∧
    (let s := here [0xE5, 0x10, 0x01]
     s.peek = .ok (.movAAbs 0x0110, []) ∧ stepWith defaultCycleCost s = .next (after s) ∧ (after s).pc = 0x0203) :=
  ⟨⟨by decide, rfl, by decide⟩, by decide, rfl, by decide⟩

/-- A taken and an untaken branch. -/
theorem witness_StepAddsItsCostOrTwoLess :
    Admissible (fun _ => 3) ∧
    (let s := here [0xB0, 0x10]
     s.peek = .ok (.bcs 0x10, [0x00]) ∧ ∃ t, stepWith (fun _ => 3) s = .next t ∧ t.cycles = 3) ∧
    (let s := here [0x90, 0x10]
     s.peek = .ok (.bcc 0x10, [0x00]) ∧ ∃ t, stepWith (fun _ => 3) s = .next t ∧ t.cycles = 1) :=
  ⟨three_admissible, ⟨by decide, _, rfl, by decide⟩, ⟨by decide, _, rfl, by decide⟩⟩

/-- A = 0x11 is an unassigned byte. -/
theorem witness_StoreIntoTheNextOpcodeIsFetched :
    let s := here [0xC5, 0x03, 0x02]
    s.peek = .ok (.movAbsA (s.pc + 3#16), []) ∧ stepWith defaultCycleCost s = .next (after s) ∧ assigned s.a = false :=
  ⟨by decide, rfl, by decide⟩

/-- One witness for the statements about `run` whose only hypothesis is an admissible table, with a run that stops for
its budget and one that faults. -/
theorem witness_admissible_run :
    Admissible (fun _ => 3) ∧ (run (fun _ => 3) 5 (here [0xBC, 0x9C])).1 = .budgetStop ∧
      (run (fun _ => 3) 6 (here [0xBC, 0x9C])).1 = .fault (.unimplementedInstruction 0x0202 0x00) :=
  ⟨three_admissible, by decide, by decide⟩

theorem witness_RunNeverOvershootsItsBudget : Admissible (fun _ => 3) ∧ executed (fun _ => 3) 5 (here [0xBC, 0x9C]) = 1 :=
  ⟨three_admissible, by decide⟩
theorem witness_RunStopsOnlyForBudgetOrFault :
    Admissible (fun _ => 3) ∧ (run (fun _ => 3) 5 (here [0xBC, 0x9C])).1 = .budgetStop := ⟨three_admissible, by decide⟩
theorem witness_RunIsAWholeNumberOfSteps :
    Admissible (fun _ => 3) ∧ 0 < executed (fun _ => 3) 5 (here [0xBC, 0x9C]) ∧
      stepsWith (fun _ => 3) 0 (here [0xBC, 0x9C]) = some (here [0xBC, 0x9C]) := ⟨three_admissible, by decide, rfl⟩
theorem witness_SplittingABudgetExecutesNoMore :
    Admissible (fun _ => 3) ∧ executed (fun _ => 3) 5 (here [0xBC, 0x9C, 0xBC]) = 1 ∧
      executed (fun _ => 3) 9 (here [0xBC, 0x9C, 0xBC]) = 3 := ⟨three_admissible, by decide, by decide⟩
theorem witness_DispatchFsmRefinesRun :
    Admissible (fun _ => 3) ∧ (Fsm.advance (fun _ => 3) 3 (Fsm.start 5 (here [0xBC, 0x9C]))).2 = some .budgetStop :=
  ⟨three_admissible, by decide⟩

theorem witness_FaultPrecedesTheBudgetAndChangesNothing :
    assigned ((here [0xFF]).readByte (here [0xFF]).pc) = false ∧
    run (fun _ => 3) 0 (here [0xFF]) = (.fault (.unimplementedInstruction 0x0200 0xFF), here [0xFF]) := by decide

theorem witness_TraceHookDoesNotAffectExecution :
    (runTraced (fun _ => 3) 3 (here [0xBC])).1 = [⟨0x0200, 0xBC, 0x00, 0x11, 0x22, 0x33, 0xEF, 0x21⟩] := by decide

theorem witness_HostMemoryAccess : (0x0200 : Address) ≠ 0x0201 ∧ ((here []).writeByte 0x0200 0xBC).pc = 0x0200 := by decide

theorem witness_HostTransactionsDoWhatTheTableSays : ∀ snap, HostCall.run 0 ≠ .construct snap := by
  intro snap h
  cases h

end Sys2Proof.Tests
end

/-! Proofs. The length of an instruction, told from its opcode byte alone (rules R5, R60, R61, R65). -/

namespace Sys2Proof

/-- Rule R60: from the opcode byte alone up to the opcode and two operand bytes. -/
theorem Format.length_bounds (f : Format) : 1 ≤ f.length ∧ f.length ≤ 3 := by
  cases f <;> decide

/-- From an instruction's opcode byte alone the decoder finds the length of its format (rules R5, R61). -/
theorem instructionLength_opcode (i : Instr) : instructionLength i.opcode = some i.format.length := by
  cases i <;> rfl

/-- Rule R65: the length is defined on the assigned opcodes and on no other byte. -/
theorem instructionLength_eq_none_iff (op : Byte) : instructionLength op = none ↔ assigned op = false := by
  rw [instructionLength, assigned]
  rcases decode [op, 0, 0] with e | ⟨i, rest⟩ <;> simp

/-- Settles O5: the length of rule R61's format column, and `Format.length_bounds`. -/
theorem lengthIsFixedByTheOpcode : Obligations.LengthIsFixedByTheOpcode := by
  refine ⟨fun i => ?_, fun op => (instructionLength_eq_none_iff op).2⟩
  obtain ⟨-, hlen, -⟩ := Laws.Shape.all i
  rw [instructionLength_opcode, hlen]
  exact ⟨rfl, rfl, i.format.length_bounds⟩

end Sys2Proof

/-! Proofs. What a step adds to `cycles` (rules R24, R80, R209), and the default cost table (rules R3, R63, R248). -/

namespace Sys2Proof.Machine

/-! ### The cost of a step -/

/-- The execute phase of a conditional branch consumes the displacement byte and follows the contract of rule R209. -/
theorem exec_conditional {i : Instr} {s t : State} (hi : i.conditional = true) (h : exec i s = .next t) :
    ∃ cond rel, t = (s.skipOperands 1).branchIf cond rel := by
  cases i
  case bpl | bmi | bvc | bvs | bcc | bcs | bne | beq =>
    cases h
    exact ⟨_, _, rfl⟩
  all_goals cases hi

/-- What an instruction adds to `cycles`: its cost, or, for an untaken conditional branch, which ends at the next
instruction, its cost with 2 given back. -/
theorem perform_cycles {T : Config.CostTable} {i : Instr} {s t : State} (h : perform T i s = .next t) :
    t.cycles = s.cycles + T i ∨
      (i.conditional = true ∧ t.pc = s.pc + 2#16 ∧ t.cycles = s.cycles + T i - 2) := by
  rw [perform] at h
  rcases exec_cycles h with hkept | ⟨hi, -⟩
  · exact .inl hkept
  · obtain ⟨cond, rel, rfl⟩ := exec_conditional hi h
    cases cond
    · refine .inr ⟨hi, ?_, rfl⟩
      simp [State.branchIf_false, BitVec.add_assoc]
    · exact .inl rfl

/-- Settles O49: `perform_cycles`, the subtraction being exact since an admissible table charges a conditional branch at
least 3 (rule R3). -/
theorem stepAddsItsCostOrTwoLess : Obligations.StepAddsItsCostOrTwoLess := by
  intro T s t i rest ⟨_, hone, hthree⟩ hpeek hstep
  rw [stepWith_of_peek hpeek] at hstep
  have hcost := hone i
  obtain hfull | ⟨hi, hpc, hless⟩ := perform_cycles hstep
  · exact ⟨by omega, .inl hfull⟩
  · have hbranch := hthree i hi
    exact ⟨by omega, .inr ⟨hi, hpc, by omega⟩⟩

/-! ### The default cost table -/

/-- The instruction that the decoder reads from an opcode byte and zero operand bytes costs what every instruction with
that opcode costs. -/
theorem defaultCycleCost_of_decode_opcode (i : Instr) :
    ∃ j rest, decode [i.opcode, 0, 0] = .ok (j, rest) ∧ defaultCycleCost i = defaultCycleCost j := by
  cases i <;> exact ⟨_, _, rfl, rfl⟩

theorem defaultCycleCost_congr_opcode {i j : Instr} (h : i.opcode = j.opcode) :
    defaultCycleCost i = defaultCycleCost j := by
  obtain ⟨i₀, _, hi, hci⟩ := defaultCycleCost_of_decode_opcode i
  obtain ⟨j₀, _, hj, hcj⟩ := defaultCycleCost_of_decode_opcode j
  rw [h, hj] at hi
  cases hi
  rw [hci, hcj]

theorem one_le_defaultCycleCost (i : Instr) : 1 ≤ defaultCycleCost i := by
  unfold defaultCycleCost
  split <;> decide

theorem defaultCycleCost_of_impl {i : Instr} (h : i.format = .impl) : defaultCycleCost i = 2 := by
  cases i
  case incA | incX | incY | decA | decX | decY | aslA | lsrA | rolA | rorA => rfl
  all_goals cases h

theorem defaultCycleCost_of_imm {i : Instr} (h : i.format = .imm) : defaultCycleCost i = 2 := by
  cases i
  case movAImm | movXImm | movYImm | orAImm | andAImm | eorAImm => rfl
  all_goals cases h

theorem defaultCycleCost_of_rel {i : Instr} (h : i.format = .rel) : defaultCycleCost i = 4 := by
  cases i
  case bra | bpl | bmi | bvc | bvs | bcc | bcs | bne | beq => rfl
  all_goals cases h

theorem defaultCycleCost_of_dp {i : Instr} (h : i.format = .dp) :
    defaultCycleCost i = if i.cls = .load ∨ i.cls = .logical then 3 else 4 := by
  cases i
  case movADp | movXDp | movYDp | movDpA | movDpX | movDpY | orADp | andADp | eorADp | incDp | decDp | aslDp | lsrDp |
      rolDp | rorDp => rfl
  all_goals cases h

theorem defaultCycleCost_of_dpImm {i : Instr} (h : i.format = .dpImm) : defaultCycleCost i = 5 := by
  cases i
  case movDpImm => rfl
  all_goals cases h

/-- The conditional branches are relative branches. -/
theorem format_of_conditional {i : Instr} (h : i.conditional = true) : i.format = .rel := by
  cases i
  case bpl | bmi | bvc | bvs | bcc | bcs | bne | beq => rfl
  all_goals cases h

/-- The constraints of rule R3. -/
theorem admissible_defaultCycleCost : Admissible defaultCycleCost := by
  refine ⟨fun _ _ => defaultCycleCost_congr_opcode, one_le_defaultCycleCost, fun i hi => ?_⟩
  rw [defaultCycleCost_of_rel (format_of_conditional hi)]
  decide

/-- Settles O51: rule R3 by `admissible_defaultCycleCost`, the column "cost" of rule R63 format by format; the forms of
format `ABS`, whose costs differ, are listed. -/
theorem defaultCostTableIsAdmissible : Obligations.DefaultCostTableIsAdmissible := by
  refine ⟨admissible_defaultCycleCost, ?_, fun _ => defaultCycleCost_of_rel, fun _ => defaultCycleCost_of_dp,
    fun _ => defaultCycleCost_of_dpImm, fun _ => List.map_eq_replicate_iff.1 rfl, fun _ => ⟨rfl, rfl⟩,
    fun _ => List.map_eq_replicate_iff.1 rfl⟩
  rintro i (h | h)
  · exact defaultCycleCost_of_impl h
  · exact defaultCycleCost_of_imm h

end Sys2Proof.Machine

/-! Proofs. The status byte as a function of the flags, and the two mutators of the flags (rules R15 to R23). -/

namespace Sys2Proof.Machine

/-! ### The status byte, flag by flag -/

/-- The first line of rule R20's pseudocode: N, from bit 7 or bit 8 of `nz_accumulator`, in position 7. -/
theorem statusByte_lineN (nz : NineBits) :
    (((nz ||| (nz >>> 1)) &&& 0x080#9).setWidth 8 : Byte) =
      if nz.getLsbD 7 || nz.getLsbD 8 then 0x80#8 else 0x00#8 := by
  rw [show 0x080#9 = BitVec.twoPow 9 7 from rfl, BitVec.and_twoPow, BitVec.getLsbD_or, BitVec.getLsbD_ushiftRight]
  split <;> rfl

/-- `status_byte()` reads `nz_accumulator` through N and Z alone (rule R29). -/
theorem State.statusByte_eq_of_flags (s : State) :
    s.statusByte = (if s.flagN then 0x80#8 else 0x00#8) ||| (if s.flagZ then 0x02#8 else 0x00#8) |||
      (s.pageBase >>> 3).setWidth 8 ||| (s.statusResidual &&& 0x5D#8) := by
  simp only [statusByte, statusByte_lineN, flagN, flagZ, beq_iff_eq]
  rfl

/-- With a legal `page_base` the bits of the status byte are the flags N V P B H I Z C (rule R19). -/
theorem State.statusByte_bits (s : State) (hp : s.pageBase = 0x000#9 ∨ s.pageBase = 0x100#9) :
    s.statusByte.getLsbD 7 = s.flagN ∧ s.statusByte.getLsbD 6 = s.flagV ∧ s.statusByte.getLsbD 5 = s.flagP ∧
    s.statusByte.getLsbD 4 = s.flagB ∧ s.statusByte.getLsbD 3 = s.flagH ∧ s.statusByte.getLsbD 2 = s.flagI ∧
    s.statusByte.getLsbD 1 = s.flagZ ∧ s.statusByte.getLsbD 0 = s.flagC := by
  have hP : ((s.pageBase >>> 3).setWidth 8 : Byte) = if s.flagP then 0x20#8 else 0x00#8 := by
    rcases hp with hp | hp <;> rw [flagP, hp] <;> rfl
  rw [s.statusByte_eq_of_flags, hP]
  cases s.flagN <;> cases s.flagZ <;> cases s.flagP <;> simp [flagV, flagB, flagH, flagI, flagC]

/-- Settles O6: rules R20 and R22 are the definitions; the bits are `State.statusByte_bits`. -/
theorem statusByteIsDerivedFromTheFlagSources : Obligations.StatusByteIsDerivedFromTheFlagSources := by
  refine ⟨fun s => rfl, fun s => ⟨rfl, rfl, rfl, rfl, rfl⟩, fun s hp => ?_⟩
  obtain ⟨hN, hV, hP, -, -, -, hZ, hC⟩ := s.statusByte_bits hp
  exact ⟨hN, hV, hP, hZ, hC⟩

/-! ### `SetNZ` -/

theorem State.setNZ_flagN_eq_decide (s : State) (v : Byte) : (s.setNZ v).flagN = decide (0x80 ≤ v.toNat) :=
  (s.setNZ_flagN v).trans (BitVec.msb_eq_decide v)

theorem State.setNZ_flagZ_eq_decide (s : State) (v : Byte) : (s.setNZ v).flagZ = decide (v = 0x00#8) :=
  s.setNZ_flagZ v

/-- Settles O8. -/
theorem setNZStoresTheByteAndNothingElse : Obligations.SetNZStoresTheByteAndNothingElse := by
  intro s v
  refine ⟨rfl, by simp, s.setNZ_flagZ_eq_decide v, s.setNZ_flagN_eq_decide v, ?_⟩
  rw [s.setNZ_flagN_eq_decide, s.setNZ_flagZ_eq_decide, decide_eq_true_iff, decide_eq_true_iff]
  rintro ⟨hN, rfl⟩
  exact absurd hN (by decide)

/-! ### `SetC` -/

theorem bitByte_eq_ite (b : Bool) : bitByte b = if b then 1#8 else 0#8 := by
  cases b <;> rfl

theorem getLsbD_bitByte_of_ne_zero (b : Bool) {n : Nat} (hn : n ≠ 0) : (bitByte b).getLsbD n = false := by
  simp [bitByte, hn]

/-- Where bits 7, 5 and 1 are 0, the mask of `SetC` drops no bit but C. -/
theorem State.setC_residual_bit_of_ne_zero {s : State} (hs : s.statusResidual &&& 0xA2#8 = 0x00#8) (b : Bool) {n : Nat}
    (hn : n ≠ 0) : (s.setC b).statusResidual.getLsbD n = s.statusResidual.getLsbD n := by
  have hbit : (s.statusResidual.getLsbD n && (0xA2#8).getLsbD n) = false := by
    rw [← BitVec.getLsbD_and, hs, BitVec.getLsbD_zero]
  rw [setC_statusResidual, BitVec.getLsbD_or, getLsbD_bitByte_of_ne_zero b hn, Bool.or_false, BitVec.getLsbD_and]
  obtain hlt | hge := Nat.lt_or_ge n 8
  · interval_cases n <;> simp_all
  · rw [BitVec.getLsbD_of_ge _ _ hge, Bool.false_and]

/-- `SetC` keeps V, B, H and I, in every state. -/
theorem State.setC_otherFlags (s : State) (b : Bool) :
    (s.setC b).statusResidual &&& 0x5C#8 = s.statusResidual &&& 0x5C#8 := by
  rw [setC_statusResidual, BitVec.and_or_distrib_right, BitVec.and_assoc, BitVec.and_self]
  cases b <;> simp [bitByte]

/-- Settles O9. -/
theorem setCChangesTheCarryAlone : Obligations.SetCChangesTheCarryAlone := by
  intro s b
  refine ⟨?_, s.setC_flagC b, fun hs _ => State.setC_residual_bit_of_ne_zero hs b⟩
  rw [State.setC, bitByte_eq_ite]

end Sys2Proof.Machine

/-! Proofs. Construction and the snapshot, the state after reset, equal memories (rules R18, R19, R25 to R28). -/

namespace Sys2Proof.Machine

/-! ### What `construct` makes of the status byte (rule R25) -/

section

variable (snap : Snapshot)

theorem construct_pageBase :
    (construct snap).pageBase = if snap.registers.status.getLsbD 5 then 0x100#9 else 0x000#9 := by
  rw [construct, constructWith, pageBaseOf, show 0x20#8 = BitVec.twoPow 8 5 from rfl, BitVec.and_twoPow]
  split <;> rfl

theorem construct_pageBase_legal : (construct snap).pageBase = 0x000#9 ∨ (construct snap).pageBase = 0x100#9 := by
  rw [construct_pageBase]
  split
  · exact .inr rfl
  · exact .inl rfl

/-- The four cases of `nz_accumulator`: bit 8 is N, bit 0 the complement of Z. -/
theorem construct_nzAccumulator :
    (construct snap).nzAccumulator =
      (match snap.registers.status.getLsbD 7, snap.registers.status.getLsbD 1 with
       | false, false => 0x001#9
       | false, true => 0x000#9
       | true, false => 0x101#9
       | true, true => 0x100#9) := by
  have hbit : ((~~~snap.registers.status >>> 1).setWidth 9).getLsbD 0 = !snap.registers.status.getLsbD 1 := by simp
  rw [construct, constructWith, nzAccumulatorOf, show 0x80#8 = BitVec.twoPow 8 7 from rfl, BitVec.and_twoPow,
    show 0x001#9 = BitVec.twoPow 9 0 from rfl, BitVec.and_twoPow, hbit]
  cases snap.registers.status.getLsbD 7 <;> cases snap.registers.status.getLsbD 1 <;> rfl

theorem construct_statusResidual : (construct snap).statusResidual = snap.registers.status &&& 0x5D#8 := rfl

theorem construct_statusResidual_bit {n : Nat} (hn : (0x5D#8).getLsbD n = true) :
    (construct snap).statusResidual.getLsbD n = snap.registers.status.getLsbD n := by
  rw [construct_statusResidual, BitVec.getLsbD_and, hn, Bool.and_true]

theorem construct_flagN : (construct snap).flagN = snap.registers.status.getLsbD 7 := by
  rw [State.flagN, construct_nzAccumulator]
  cases snap.registers.status.getLsbD 7 <;> cases snap.registers.status.getLsbD 1 <;> rfl

theorem construct_flagV : (construct snap).flagV = snap.registers.status.getLsbD 6 :=
  construct_statusResidual_bit snap rfl

theorem construct_flagP : (construct snap).flagP = snap.registers.status.getLsbD 5 := by
  rw [State.flagP, construct_pageBase]
  cases snap.registers.status.getLsbD 5 <;> rfl

theorem construct_flagB : (construct snap).flagB = snap.registers.status.getLsbD 4 :=
  construct_statusResidual_bit snap rfl

theorem construct_flagH : (construct snap).flagH = snap.registers.status.getLsbD 3 :=
  construct_statusResidual_bit snap rfl

theorem construct_flagI : (construct snap).flagI = snap.registers.status.getLsbD 2 :=
  construct_statusResidual_bit snap rfl

theorem construct_flagZ : (construct snap).flagZ = snap.registers.status.getLsbD 1 := by
  rw [State.flagZ, construct_nzAccumulator]
  cases snap.registers.status.getLsbD 7 <;> cases snap.registers.status.getLsbD 1 <;> rfl

theorem construct_flagC : (construct snap).flagC = snap.registers.status.getLsbD 0 :=
  construct_statusResidual_bit snap rfl

/-- The status byte comes back bit by bit, each as its flag. -/
theorem construct_statusByte : (construct snap).statusByte = snap.registers.status := by
  obtain ⟨hN, hV, hP, hB, hH, hI, hZ, hC⟩ := State.statusByte_bits _ (construct_pageBase_legal snap)
  refine BitVec.eq_of_getLsbD_eq fun n hn => ?_
  interval_cases n
  · exact hC.trans (construct_flagC snap)
  · exact hZ.trans (construct_flagZ snap)
  · exact hI.trans (construct_flagI snap)
  · exact hH.trans (construct_flagH snap)
  · exact hB.trans (construct_flagB snap)
  · exact hP.trans (construct_flagP snap)
  · exact hV.trans (construct_flagV snap)
  · exact hN.trans (construct_flagN snap)

theorem construct_readByte (a : Address) : (construct snap).readByte a = snap.memory[a.toNat]'(a.isLt) := by
  have h := Memory.lookup_ofBytes snap.memory.toList (key := 0) (by simp) a.toNat (by simpa using a.isLt)
  rw [Nat.zero_add] at h
  exact h.trans (Vector.getElem_toList _)

theorem construct_inv : (construct snap).Inv := by
  refine ⟨construct_memory_wf snap, construct_pageBase_legal snap, ?_, ?_⟩
  · rw [construct_nzAccumulator]
    cases snap.registers.status.getLsbD 7 <;> cases snap.registers.status.getLsbD 1 <;> decide
  · rw [construct_statusResidual, BitVec.and_assoc]
    exact BitVec.and_zero

end

/-- Settles O7. -/
theorem statusByteBitsAreTheFlagsInOrder : Obligations.StatusByteBitsAreTheFlagsInOrder := by
  intro snap
  refine ⟨?_, construct_statusByte snap⟩
  rw [construct_flagN, construct_flagV, construct_flagP, construct_flagB, construct_flagH, construct_flagI,
    construct_flagZ, construct_flagC]

/-- Settles O10. -/
theorem constructAssignsEveryElement : Obligations.ConstructAssignsEveryElement :=
  fun snap => ⟨rfl, rfl, rfl, rfl, rfl, rfl, construct_pageBase snap, construct_statusResidual snap,
    construct_nzAccumulator snap, construct_flagN snap, construct_flagZ snap, construct_readByte snap⟩

/-- Settles O11: the five registers are copied, and the status byte comes back by `construct_statusByte`. -/
theorem snapshotAfterConstructIsTheInput : Obligations.SnapshotAfterConstructIsTheInput := by
  intro snap
  rw [State.snapshot, construct_statusByte]
  rfl

/-- Settles O14. -/
theorem constructEstablishesTheInvariants : Obligations.ConstructEstablishesTheInvariants := construct_inv

/-! ### The state after reset -/

/-- Settles O12: an image of zero bytes lists no cell. -/
theorem resetIsTheAllZeroConstruction : Obligations.ResetIsTheAllZeroConstruction := by
  refine ⟨by decide, rfl, fun a => rfl, ?_⟩
  rw [State.reset_eq_construct, construct, Vector.toList_replicate]
  exact congrArg (constructWith _) (Memory.ofBytes_unlisted 65536 0).symm

/-- Settles O13. -/
theorem resetMeetsTheInvariants : Obligations.ResetMeetsTheInvariants :=
  ⟨State.reset_memory_wf, .inl rfl, by decide, rfl⟩

/-! ### Equal memories -/

/-- Settles O19: a 16-bit address reaches every key that a canonical memory can list. -/
theorem equalReadsAreEqualMemories : Obligations.EqualReadsAreEqualMemories := by
  refine ⟨fun m n hm hn h => Memory.eq_of_lookup_eq hm hn fun key => ?_, fun m a v hm => Memory.wf_write hm a v⟩
  obtain hlt | hge := Nat.lt_or_ge key 65536
  · have hread := h (BitVec.ofNat 16 key)
    rwa [Memory.read, Memory.read, BitVec.toNat_ofNat, Nat.mod_eq_of_lt hlt] at hread
  · rw [Memory.lookup_of_ge hm hge, Memory.lookup_of_ge hn hge]

end Sys2Proof.Machine

/-! Proofs. The invariants of rule R28, through every step and every host transaction. -/

namespace Sys2Proof.Machine

namespace State.Inv

variable {s : State}

theorem setReg (h : s.Inv) (k : Reg) (v : Byte) : (s.setReg k v).Inv := by
  cases k <;> exact h

theorem writeByte (h : s.Inv) (addr : Address) (v : Byte) : (s.writeByte addr v).Inv := by
  obtain ⟨hwf, hrest⟩ := h
  exact ⟨writeByte_memory_wf hwf addr v, hrest⟩

/-- `SetNZ` clears bit 8. -/
theorem setNZ (h : s.Inv) (v : Byte) : (s.setNZ v).Inv := by
  obtain ⟨hwf, hp, -, hr⟩ := h
  exact ⟨hwf, hp, fun hbit => by simp at hbit, hr⟩

/-- `SetC` clears bits 7, 5 and 1. -/
theorem setC (h : s.Inv) (b : Bool) : (s.setC b).Inv := by
  obtain ⟨hwf, hp, hnz, -⟩ := h
  refine ⟨hwf, hp, hnz, ?_⟩
  rw [setC_statusResidual, BitVec.and_or_distrib_right, BitVec.and_assoc]
  cases b <;> simp [bitByte]

end State.Inv

theorem Effect.inv {s t : State} (h : Effect s t) (hs : s.Inv) : t.Inv := by
  cases h with
  | register k v => exact (hs.setReg k v).setNZ v
  | store ea v => exact hs.writeByte ea v
  | modify ea v => exact (hs.writeByte ea v).setNZ v
  | shiftA v c => exact ((hs.setReg .a v).setC c).setNZ v
  | shiftMem ea v c => exact ((hs.writeByte ea v).setC c).setNZ v
  | jump => exact hs
  | untaken => exact hs

/-- Inversion of a step: one effect on the state with a cost committed and `pc` past some operand bytes. -/
theorem stepWith_effect {T : Config.CostTable} {s t : State} (h : stepWith T s = .next t) :
    ∃ cost n, Effect ((s.commit cost).skipOperands n) t := by
  obtain ⟨i, rest, -, h⟩ := stepWith_next h
  exact ⟨_, _, effect_of_exec h⟩

theorem stepWith_inv {T : Config.CostTable} {s t : State} (hs : s.Inv) (h : stepWith T s = .next t) : t.Inv := by
  obtain ⟨cost, n, he⟩ := stepWith_effect h
  exact he.inv hs

theorem State.Inv.run {s : State} (hs : s.Inv) (T : Config.CostTable) (budget : Nat) : (run T budget s).2.Inv :=
  runLoop_preserves (fun _ _ => stepWith_inv) _ _ hs

/-- Settles O15: `stepWith_inv`, of which `step` is the case of the default cost table. -/
theorem everyStepKeepsTheInvariants : Obligations.EveryStepKeepsTheInvariants :=
  ⟨fun _ _ => stepWith_inv, fun _ _ _ => stepWith_inv⟩

/-- Settles O16, transaction by transaction. -/
theorem everyTransactionKeepsTheInvariants : Obligations.EveryTransactionKeepsTheInvariants := by
  intro T call session t reply hs h
  cases call with
  | construct snap =>
    cases h
    exact construct_inv snap
  | run budget =>
    cases session with
    | none => cases h
    | some s =>
      cases h
      exact (hs s rfl).run T budget
  | snapshot | memRead =>
    cases session with
    | none => cases h
    | some s =>
      cases h
      exact hs _ rfl
  | memWrite addr v =>
    cases session with
    | none => cases h
    | some s =>
      cases h
      exact (hs s rfl).writeByte addr v

end Sys2Proof.Machine

/-! Proofs. What no instruction looks at: `nz_accumulator` behind N and Z, `sp`, B, H, I (rules R12, R19, R29, R222). -/

namespace Sys2Proof.Machine

/-! ### Simulations -/

/-- A relation between states that differ only in what no operand form reads, agree on the flags that branches and
rotations test, and stay related under every update that an instruction makes. -/
structure Simulation (R : State → State → Prop) : Prop where
  frame : ∀ {s t}, R s t → t = { s with
    sp := t.sp, nzAccumulator := t.nzAccumulator, statusResidual := t.statusResidual, cycles := t.cycles }
  flagN : ∀ {s t}, R s t → t.flagN = s.flagN
  flagZ : ∀ {s t}, R s t → t.flagZ = s.flagZ
  flagC : ∀ {s t}, R s t → t.flagC = s.flagC
  flagV : ∀ {s t}, R s t → t.flagV = s.flagV
  setPc : ∀ {s t}, R s t → ∀ target, R (s.setPc target) (t.setPc target)
  setReg : ∀ {s t}, R s t → ∀ k v, R (s.setReg k v) (t.setReg k v)
  writeByte : ∀ {s t}, R s t → ∀ ea v, R (s.writeByte ea v) (t.writeByte ea v)
  setNZ : ∀ {s t}, R s t → ∀ v, R (s.setNZ v) (t.setNZ v)
  setC : ∀ {s t}, R s t → ∀ b, R (s.setC b) (t.setC b)
  refundUntaken : ∀ {s t}, R s t → R s.refundUntaken t.refundUntaken

namespace Simulation

variable {R : State → State → Prop} (hR : Simulation R) {s t : State}
include hR

theorem skipOperands (h : R s t) (n : Nat) : R (s.skipOperands n) (t.skipOperands n) := by
  have hpc : t.pc = s.pc := by rw [hR.frame h]
  rw [State.skipOperands, State.skipOperands, State.advancePc, State.advancePc, hpc]
  exact hR.setPc h _

theorem branchIf (h : R s t) (cond : Bool) (rel : Byte) : R (s.branchIf cond rel) (t.branchIf cond rel) := by
  have hpc : t.pc = s.pc := by rw [hR.frame h]
  cases cond
  · exact hR.refundUntaken h
  · rw [State.branchIf_true, State.branchIf_true, State.relTarget, State.relTarget, hpc]
    exact hR.setPc h _

theorem shiftA (h : R s t) (op : Byte → Bool → Byte × Bool) : R (s.shiftA op) (t.shiftA op) := by
  have ha : t.a = s.a := by rw [hR.frame h]
  rw [State.shiftA_eq, State.shiftA_eq, ha, hR.flagC h]
  exact hR.setNZ (hR.setC (hR.setReg h _ _) _) _

theorem shiftMem (h : R s t) (op : Byte → Bool → Byte × Bool) (ea : Address) :
    R (s.shiftMem op ea) (t.shiftMem op ea) := by
  have hm : t.memory = s.memory := by rw [hR.frame h]
  rw [State.shiftMem_eq, State.shiftMem_eq, State.readByte_congr hm, hR.flagC h]
  exact hR.setNZ (hR.setC (hR.writeByte h _ _) _) _

/-- Related states complete an instruction in related states. -/
theorem exec (h : R s t) (i : Instr) : ∃ s' t', exec i s = .next s' ∧ exec i t = .next t' ∧ R s' t' := by
  have hskip := hR.skipOperands h
  have hN := hR.flagN (hskip 1)
  have hZ := hR.flagZ (hskip 1)
  have hC := hR.flagC (hskip 1)
  have hV := hR.flagV (hskip 1)
  have hbranch := hR.branchIf (hskip 1)
  -- With the frame substituted, what the operand forms read in the two states is the same by definition.
  obtain ⟨sp, nz, residual, cycles, rfl⟩ : ∃ sp nz residual cycles, t = { s with
      sp := sp, nzAccumulator := nz, statusResidual := residual, cycles := cycles } := ⟨_, _, _, _, hR.frame h⟩
  cases i
  case incA | incX | incY | decA | decX | decY => exact ⟨_, _, rfl, rfl, hR.setNZ (hR.setReg h _ _) _⟩
  case movDpA | movAbsA | movAbsIdxXA | movAbsIdxYA | movDpX | movAbsX | movDpY | movAbsY | movDpImm =>
    exact ⟨_, _, rfl, rfl, hR.writeByte (hskip _) _ _⟩
  case incDp | incAbs | decDp | decAbs => exact ⟨_, _, rfl, rfl, hR.setNZ (hR.writeByte (hskip _) _ _) _⟩
  case aslA | lsrA | rolA | rorA => exact ⟨_, _, rfl, rfl, hR.shiftA h _⟩
  case aslDp | aslAbs | lsrDp | lsrAbs | rolDp | rolAbs | rorDp | rorAbs =>
    exact ⟨_, _, rfl, rfl, hR.shiftMem (hskip _) _ _⟩
  case bra => exact ⟨_, _, rfl, rfl, hR.setPc (hskip _) _⟩
  case bpl | bmi => exact ⟨_, _, rfl, rfl, by rw [hN]; exact hbranch _ _⟩
  case bvc | bvs => exact ⟨_, _, rfl, rfl, by rw [hV]; exact hbranch _ _⟩
  case bcc | bcs => exact ⟨_, _, rfl, rfl, by rw [hC]; exact hbranch _ _⟩
  case bne | beq => exact ⟨_, _, rfl, rfl, by rw [hZ]; exact hbranch _ _⟩
  -- Load and Logical
  all_goals exact ⟨_, _, rfl, rfl, hR.setNZ (hR.setReg (hskip _) _ _) _⟩

theorem exec_next (h : R s t) {i : Instr} {s' : State} (hs : Machine.exec i s = .next s') :
    ∃ t', Machine.exec i t = .next t' ∧ R s' t' := by
  obtain ⟨u, t', hu, ht, hut⟩ := hR.exec h i
  rw [hs] at hu
  cases hu
  exact ⟨t', ht, hut⟩

theorem peek (h : R s t) : t.peek = s.peek := by
  rw [hR.frame h]
  rfl

theorem unimplemented (h : R s t) : t.unimplemented = s.unimplemented := by
  rw [hR.frame h]
  rfl

/-- Related states fault alike. -/
theorem stepWith_fault (h : R s t) {T : Config.CostTable} {f : Fault} (hs : stepWith T s = .fault f) :
    stepWith T t = .fault f := by
  obtain ⟨rfl, e, hpeek⟩ := Machine.stepWith_fault hs
  rw [stepWith, hR.peek h, hpeek, ← hR.unimplemented h]
  rfl

end Simulation

/-! ### What differs in `nz_accumulator` alone (rule R29) -/

/-- `SetNZ` makes two such states equal; no other update looks at `nz_accumulator`. -/
theorem simulation_sameButNZ : Simulation State.SameButNZ where
  frame := by
    rintro s t ⟨ht, -⟩
    rw [ht]
  flagN := fun ⟨_, hN, _⟩ => hN.symm
  flagZ := fun ⟨_, _, hZ⟩ => hZ.symm
  flagC := by
    rintro s t ⟨ht, -⟩
    rw [ht]
    rfl
  flagV := by
    rintro s t ⟨ht, -⟩
    rw [ht]
    rfl
  setPc := fun ⟨ht, hN, hZ⟩ target => ⟨congrArg (·.setPc target) ht, hN, hZ⟩
  setReg := by
    rintro s t ⟨ht, hN, hZ⟩ k v
    have hset := congrArg (·.setReg k v) ht
    cases k <;> exact ⟨hset, hN, hZ⟩
  writeByte := fun ⟨ht, hN, hZ⟩ ea v => ⟨congrArg (·.writeByte ea v) ht, hN, hZ⟩
  setNZ := fun ⟨ht, _, _⟩ v => ⟨congrArg (·.setNZ v) ht, rfl, rfl⟩
  setC := fun ⟨ht, hN, hZ⟩ b => ⟨congrArg (·.setC b) ht, hN, hZ⟩
  refundUntaken := fun ⟨ht, hN, hZ⟩ => ⟨congrArg (·.refundUntaken) ht, hN, hZ⟩

namespace State.SameButNZ

variable {s t : State}

theorem cycles (h : s.SameButNZ t) : t.cycles = s.cycles := by
  obtain ⟨ht, -⟩ := h
  rw [ht]

theorem commit (h : s.SameButNZ t) (cost : Nat) : (s.commit cost).SameButNZ (t.commit cost) := by
  obtain ⟨ht, hN, hZ⟩ := h
  exact ⟨congrArg (·.commit cost) ht, hN, hZ⟩

theorem statusByte (h : s.SameButNZ t) : s.statusByte = t.statusByte := by
  obtain ⟨ht, hN, hZ⟩ := h
  have hp : t.pageBase = s.pageBase := by rw [ht]
  have hr : t.statusResidual = s.statusResidual := by rw [ht]
  rw [s.statusByte_eq_of_flags, t.statusByte_eq_of_flags, hN, hZ, hp, hr]

theorem snapshot (h : s.SameButNZ t) : s.snapshot = t.snapshot := by
  have hstatus := h.statusByte
  obtain ⟨ht, -⟩ := h
  rw [State.snapshot, State.snapshot, hstatus, ht]

theorem check (h : s.SameButNZ t) (T : Config.CostTable) (target : Nat) :
    Machine.check T target t = Machine.check T target s := by
  rw [Machine.check, Machine.check, simulation_sameButNZ.peek h, simulation_sameButNZ.unimplemented h, h.cycles]

theorem runLoop (h : s.SameButNZ t) (T : Config.CostTable) (target rounds : Nat) :
    (runLoop T target rounds s).1 = (runLoop T target rounds t).1 ∧
      (runLoop T target rounds s).2.SameButNZ (runLoop T target rounds t).2 := by
  induction rounds generalizing s t with
  | zero => exact ⟨rfl, h⟩
  | succ rounds ih =>
    have hcheck := h.check T target
    rcases hs : Machine.check T target s with o | i
    · rw [runLoop_stop hs, runLoop_stop (hcheck.trans hs)]
      exact ⟨rfl, h⟩
    · obtain ⟨s', t', hs', ht', h'⟩ := simulation_sameButNZ.exec (h.commit (T i)) i
      rw [runLoop_execute hs hs', runLoop_execute (hcheck.trans hs) ht']
      exact ih h'

theorem run (h : s.SameButNZ t) (T : Config.CostTable) (budget : Nat) :
    (run T budget s).1 = (run T budget t).1 ∧ (run T budget s).2.SameButNZ (run T budget t).2 := by
  rw [Machine.run, Machine.run, h.cycles]
  exact h.runLoop T _ _

end State.SameButNZ

/-- Settles O37: the states of rule R29 are in simulation, and so are the runs from them. -/
theorem hiddenAccumulatorIsUnobservable : Obligations.HiddenAccumulatorIsUnobservable :=
  fun _ _ h => ⟨h.statusByte, h.snapshot, fun _ _ => simulation_sameButNZ.exec_next h,
    fun _ _ => simulation_sameButNZ.stepWith_fault h, h.run⟩

/-! ### What differs in `sp`, or in B, H and I (rules R12, R19, R222) -/

theorem simulation_sp (v : Byte) : Simulation fun s t => t = { s with sp := v } where
  frame := by
    rintro s t rfl
    rfl
  flagN := by
    rintro s t rfl
    rfl
  flagZ := by
    rintro s t rfl
    rfl
  flagC := by
    rintro s t rfl
    rfl
  flagV := by
    rintro s t rfl
    rfl
  setPc := fun h target => congrArg (·.setPc target) h
  setReg := by
    rintro s t rfl k v
    cases k <;> rfl
  writeByte := fun h ea v => congrArg (·.writeByte ea v) h
  setNZ := fun h v => congrArg (·.setNZ v) h
  setC := fun h b => congrArg (·.setC b) h
  refundUntaken := fun h => congrArg State.refundUntaken h

/-- Turning over some of B, H and I leaves the other bits of `status_residual`. -/
theorem getLsbD_xor_inert {m : Byte} (hm : m &&& 0x1C#8 = m) (r : Byte) {n : Nat} (hn : (0x1C#8).getLsbD n = false) :
    (r ^^^ m).getLsbD n = r.getLsbD n := by
  rw [← hm, BitVec.getLsbD_xor, BitVec.getLsbD_and, hn, Bool.and_false, Bool.xor_false]

/-- What `SetC` writes carries B, H and I along. -/
theorem carryWrite_xor_inert {m : Byte} (hm : m &&& 0x1C#8 = m) (r : Byte) (b : Bool) :
    ((r ^^^ m) &&& 0x5C#8) ||| bitByte b = ((r &&& 0x5C#8) ||| bitByte b) ^^^ m := by
  rw [← hm]
  ext n hn
  interval_cases n <;> cases b <;> simp [bitByte]

theorem simulation_inert {m : Byte} (hm : m &&& 0x1C#8 = m) :
    Simulation fun s t => t = { s with statusResidual := s.statusResidual ^^^ m } where
  frame := by
    rintro s t rfl
    rfl
  flagN := by
    rintro s t rfl
    rfl
  flagZ := by
    rintro s t rfl
    rfl
  flagC := by
    rintro s t rfl
    exact getLsbD_xor_inert hm _ rfl
  flagV := by
    rintro s t rfl
    exact getLsbD_xor_inert hm _ rfl
  setPc := fun h target => congrArg (·.setPc target) h
  setReg := by
    rintro s t rfl k v
    cases k <;> rfl
  writeByte := fun h ea v => congrArg (·.writeByte ea v) h
  setNZ := fun h v => congrArg (·.setNZ v) h
  setC := by
    rintro s t rfl b
    rw [State.setC, carryWrite_xor_inert hm]
    rfl
  refundUntaken := fun h => congrArg State.refundUntaken h

/-- Settles O36: changing `sp`, and turning over B, H or I, is a simulation by a function of the state. -/
theorem spAndTheInertFlagsAreNeverRead : Obligations.SpAndTheInertFlagsAreNeverRead := by
  constructor
  · intro i s t v h
    obtain ⟨t', ht, rfl⟩ := (simulation_sp v).exec_next rfl h
    exact ht
  · intro i s t m hm h
    obtain ⟨t', ht, rfl⟩ := (simulation_inert hm).exec_next rfl h
    exact ht

end Sys2Proof.Machine

/-! Proofs. What a step does to the flags and to `pc` (rules R11, R12, R16, R17, R21, R23, R210). -/

namespace Sys2Proof.Machine

/-! ### The flag sources -/

theorem Effect.nzAccumulator {s t : State} (h : Effect s t) :
    t.nzAccumulator = s.nzAccumulator ∨ t.nzAccumulator.getLsbD 8 = false := by
  cases h with
  | store | jump | untaken => exact .inl rfl
  | register | modify | shiftA | shiftMem => exact .inr (by simp)

/-- Settles O17, effect by effect. -/
theorem noStepSetsBitEightOfTheAccumulator : Obligations.NoStepSetsBitEightOfTheAccumulator := by
  intro T s t h
  obtain ⟨cost, n, he⟩ := stepWith_effect h
  exact he.nzAccumulator

theorem exec_statusResidual {i : Instr} {s t : State} (hi : i.cls ≠ .shift) (h : exec i s = .next t) :
    t.statusResidual = s.statusResidual := by
  cases i
  case aslA | aslDp | aslAbs | lsrA | lsrDp | lsrAbs | rolA | rolDp | rolAbs | rorA | rorDp | rorAbs =>
    exact absurd rfl hi
  case bpl | bmi | bvc | bvs | bcc | bcs | bne | beq =>
    cases h
    rw [State.branchIf_frame]
    rfl
  all_goals
    cases h
    rfl

/-- Settles O34. -/
theorem onlyShiftsWriteTheCarry : Obligations.OnlyShiftsWriteTheCarry := by
  intro T s t i rest hpeek hi h
  rw [stepWith_of_peek hpeek, perform] at h
  rw [exec_statusResidual hi h, State.commit_statusResidual]

/-- No effect writes `sp`, P, V, B, H or I. -/
theorem Effect.unwritten {s t : State} (h : Effect s t) :
    t.sp = s.sp ∧ t.pageBase = s.pageBase ∧ t.statusResidual &&& 0x5C#8 = s.statusResidual &&& 0x5C#8 := by
  cases h with
  | register | store | modify | jump | untaken => simp
  | shiftA v c => exact ⟨rfl, rfl, (s.setReg .a v).setC_otherFlags c⟩
  | shiftMem ea v c => exact ⟨rfl, rfl, (s.writeByte ea v).setC_otherFlags c⟩

/-- Settles O35: `Effect.unwritten`, step after step. -/
theorem noRunChangesSpOrTheUnwrittenFlags : Obligations.NoRunChangesSpOrTheUnwrittenFlags := by
  intro T budget s
  refine runLoop_preserves (P := fun u => u.sp = s.sp ∧ u.pageBase = s.pageBase ∧
    u.statusResidual &&& 0x5C#8 = s.statusResidual &&& 0x5C#8) ?_ _ _ ⟨rfl, rfl, rfl⟩
  rintro u t ⟨hsp, hp, hr⟩ h
  obtain ⟨cost, n, he⟩ := stepWith_effect h
  obtain ⟨hsp', hp', hr'⟩ := he.unwritten
  exact ⟨hsp'.trans hsp, hp'.trans hp, hr'.trans hr⟩

/-! ### The flags after the byte written -/

/-- Load, Logical, Increment/Decrement and Shift end with `SetNZ` of the byte that their register or cell holds. -/
theorem exec_setNZ {i : Instr} {s t : State} (hstore : i.cls ≠ .store) (hbranch : i.cls ≠ .branch)
    (h : exec i s = .next t) :
    ∃ u v, t = State.setNZ u v ∧ (∀ k, destReg i = some k → u.reg k = v) ∧
      (∀ ea, storeAddress i s = some ea → u.readByte ea = v) := by
  cases i
  case movDpA | movAbsA | movAbsIdxXA | movAbsIdxYA | movDpX | movAbsX | movDpY | movAbsY | movDpImm =>
    exact absurd rfl hstore
  case bra | bpl | bmi | bvc | bvs | bcc | bcs | bne | beq => exact absurd rfl hbranch
  case incDp | incAbs | decDp | decAbs | aslDp | aslAbs | lsrDp | lsrAbs | rolDp | rolAbs | rorDp | rorAbs =>
    cases h
    refine ⟨_, _, rfl, nofun, ?_⟩
    rintro ea ⟨⟩
    exact (State.readByte_writeByte _ _ _ _).trans (if_pos rfl)
  all_goals
    cases h
    refine ⟨_, _, rfl, ?_, nofun⟩
    rintro k ⟨⟩
    rfl

/-- Settles O33: `exec_setNZ`, and what N and Z are after `SetNZ`. -/
theorem flagsFollowTheByteWritten : Obligations.FlagsFollowTheByteWritten := by
  intro i s t v hstore hbranch h hv
  obtain ⟨-, hp, -⟩ := (effect_of_exec h).unwritten
  obtain ⟨u, w, rfl, hreg, hcell⟩ := exec_setNZ hstore hbranch h
  obtain rfl : v = w := by
    rcases hv with ⟨k, hk, rfl⟩ | ⟨ea, hea, rfl⟩
    · simpa using hreg k hk
    · simpa using hcell ea hea
  have hZ := u.setNZ_flagZ_eq_decide v
  have hN := u.setNZ_flagN_eq_decide v
  refine ⟨hZ, hN, fun hlegal => ?_⟩
  rw [State.skipOperands_pageBase] at hp
  rw [← hp] at hlegal
  obtain ⟨hbit7, -, -, -, -, -, hbit1, -⟩ := State.statusByte_bits _ hlegal
  exact ⟨hbit1.trans hZ, hbit7.trans hN⟩

/-! ### The program counter -/

/-- Where an instruction leaves `pc`: past its operand bytes, or at the relative target of a branch. -/
theorem exec_pc {i : Instr} {s t : State} (h : exec i s = .next t) :
    t.pc = s.pc + BitVec.ofNat 16 i.operandBytes.length ∨
      (i.cls = .branch ∧ ∃ rel : Byte, i.operandBytes = [rel] ∧ t.pc = s.pc + 1#16 + rel.signExtend 16) := by
  cases i
  case incA | incX | incY | decA | decX | decY | aslA | lsrA | rolA | rorA =>
    cases h
    exact .inl (BitVec.add_zero _).symm
  case bra =>
    cases h
    exact .inr ⟨rfl, _, rfl, rfl⟩
  case bpl | bmi | bvc | bvs | bcc | bcs | bne | beq =>
    cases h
    rw [State.branchIf]
    split
    · exact .inr ⟨rfl, _, rfl, rfl⟩
    · exact .inl rfl
  all_goals
    cases h
    exact .inl rfl

/-- Settles O48: `exec_pc`, from the state with `pc` past the opcode byte. -/
theorem onlyTakenBranchesMovePcElsewhere : Obligations.OnlyTakenBranchesMovePcElsewhere := by
  intro T s t i rest hpeek h
  rw [stepWith_of_peek hpeek, perform] at h
  have hlen : i.length = 1 + i.operandBytes.length := Nat.add_comm _ 1
  obtain hpc | ⟨hi, rel, hrel, hpc⟩ := exec_pc h
  · left
    rw [hpc, State.commit_pc, hlen, BitVec.add_assoc, BitVec.ofNat_add]
  · refine .inr ⟨hi, rel, hrel, ?_⟩
    rw [hpc, State.commit_pc, BitVec.add_assoc s.pc]
    rfl

end Sys2Proof.Machine

/-! Proofs. The decoder reads back what the encoder writes, and fetching byte by byte (rules R11, R60, R61, R87). -/

namespace Sys2Proof

/-- How the decoder reads the operand bytes after an opcode byte: by one of the formats of rule R61, as the inverse of the
encoder, or not at all. -/
inductive OperandsAfter (op : Byte) : (List Byte → DecodeResult) → Prop
  | noOperand {i : Instr} (henc : encode i = [op]) : OperandsAfter op (noOperand i)
  | byteOperand {mk : Byte → Instr} (henc : ∀ b, encode (mk b) = [op, b]) : OperandsAfter op (byteOperand mk)
  | wordOperand {mk : Address → Instr} (henc : ∀ w, encode (mk w) = [op, loByte w, hiByte w]) :
      OperandsAfter op (wordOperand mk)
  | immThenDp {mk : Byte → Byte → Instr} (henc : ∀ dp imm, encode (mk dp imm) = [op, imm, dp]) :
      OperandsAfter op (immThenDp mk)
  | unassigned (e : DecodeError) : OperandsAfter op fun _ => .error e

/-- The 66 rows of rule R63, and last the unassigned bytes. -/
theorem decodeOperands_operandsAfter (op : Byte) : OperandsAfter op (decodeOperands op) := by
  unfold decodeOperands
  split
  case h_67 => exact .unassigned _
  all_goals
    constructor
    intros
    rfl

theorem OperandsAfter.eq_encode_append {op : Byte} {operands : List Byte → DecodeResult} (h : OperandsAfter op operands)
    {bytes rest : List Byte} {i : Instr} (hi : operands bytes = .ok (i, rest)) : op :: bytes = encode i ++ rest := by
  cases h with
  | noOperand henc =>
    cases hi
    rw [henc]
    rfl
  | byteOperand henc =>
    match bytes, hi with
    | b :: bytes, rfl => rw [henc]; rfl
  | wordOperand henc =>
    match bytes, hi with
    | lo :: hi :: bytes, rfl => rw [henc, loByte_littleEndian, hiByte_littleEndian]; rfl
  | immThenDp henc =>
    match bytes, hi with
    | imm :: dp :: bytes, rfl => rw [henc]; rfl
  | unassigned => cases hi

/-- Bytes that decode to an instruction begin with its words. -/
theorem decode_eq_encode_append {bytes : List Byte} {i : Instr} {rest : List Byte} (h : decode bytes = .ok (i, rest)) :
    bytes = encode i ++ rest := by
  cases bytes with
  | nil => cases h
  | cons op bytes => exact (decodeOperands_operandsAfter op).eq_encode_append h

namespace Machine

/-- Up to three `Fetch8()` give the first of the bytes that the decoder peeks at. -/
theorem State.fetchBytes_eq_take (s : State) {n : Nat} (hn : n ≤ 3) :
    s.fetchBytes n = (s.bytesAtPc.take n, { s with pc := s.pc + BitVec.ofNat 16 n }) := by
  interval_cases n <;> simp [fetchBytes, fetch8, advancePc, setPc, bytesAtPc, readByte, BitVec.add_assoc]

/-- Settles O46: the bytes peeked at are the words and what follows them, and an instruction has at most three. -/
theorem fetchedBytesAreTheDecodedWords : Obligations.FetchedBytesAreTheDecodedWords := by
  intro s i rest hpeek
  obtain ⟨-, hlen, -⟩ := Laws.Shape.all i
  obtain ⟨-, hle⟩ := i.format.length_bounds
  rw [s.fetchBytes_eq_take (hlen ▸ hle), decode_eq_encode_append hpeek, Instr.length, List.take_left]

end Machine

end Sys2Proof

/-! Proofs. Memory: one cell a write, the accesses of an instruction, and what it depends on in memory (rules R41, R42, R46,
R54, R81). -/

namespace Sys2Proof.Machine

/-! ### Reading after writing -/

@[simp] theorem State.readByte_writeByte_same (s : State) (addr : Address) (v : Byte) :
    (s.writeByte addr v).readByte addr = v :=
  (s.readByte_writeByte addr v addr).trans (if_pos rfl)

theorem State.readByte_writeByte_of_ne (s : State) {addr b : Address} (v : Byte) (h : b ≠ addr) :
    (s.writeByte addr v).readByte b = s.readByte b :=
  (s.readByte_writeByte addr v b).trans (if_neg h)

/-- Settles O18. -/
theorem memWriteChangesOneCell : Obligations.MemWriteChangesOneCell :=
  fun s addr v => ⟨s.readByte_writeByte_same addr v, fun _ => s.readByte_writeByte_of_ne v, rfl⟩

/-! ### The accesses of an instruction -/

theorem fetchesFrom_eq_map (addr : Address) (n : Nat) :
    fetchesFrom addr n = (List.range n).map fun k => Access.fetch (addr + BitVec.ofNat 16 k) := by
  induction n generalizing addr with
  | zero => rfl
  | succ n ih =>
    rw [fetchesFrom, ih, List.range_succ_eq_map, List.map_cons, List.map_map]
    simp [Function.comp_def, BitVec.ofNat_add, BitVec.add_assoc, BitVec.add_comm 1#16]

/-- The list of an optional access has at most that one access. -/
theorem access_toList (mk : Address → Access) (addr : Option Address) :
    (addr.map mk).toList.length ≤ 1 ∧ ∀ x ∈ (addr.map mk).toList, ∃ a, x = mk a := by
  cases addr with
  | none => exact ⟨Nat.zero_le 1, nofun⟩
  | some a => exact ⟨le_rfl, fun x hx => ⟨a, List.mem_singleton.1 hx⟩⟩

theorem length_le_three (i : Instr) : i.length ≤ 3 := by
  obtain ⟨-, hlen, -⟩ := Laws.Shape.all i
  obtain ⟨-, hle⟩ := i.format.length_bounds
  exact hlen ▸ hle

/-- An instruction that both reads and writes data does so at one address: a Store reads nothing, and of the others only the
read-modify-write forms write. -/
theorem loadAddress_eq_storeAddress {i : Instr} {s : State} {a b : Address} (ha : loadAddress i s = some a)
    (hb : storeAddress i s = some b) : a = b := by
  cases i
  case movDpA | movAbsA | movAbsIdxXA | movAbsIdxYA | movDpX | movAbsX | movDpY | movAbsY | movDpImm => cases ha
  case incDp | incAbs | decDp | decAbs | aslDp | aslAbs | lsrDp | lsrAbs | rolDp | rolAbs | rorDp | rorAbs =>
    exact Option.some.inj (ha.symm.trans hb)
  all_goals cases hb

/-- Settles O40. -/
theorem accessesAreOrderedAndBounded : Obligations.AccessesAreOrderedAndBounded := by
  refine ⟨fun i s => ?_, fun _ _ _ _ => loadAddress_eq_storeAddress⟩
  obtain ⟨hreads, hread⟩ := access_toList .read (loadAddress i s)
  obtain ⟨hwrites, hwrite⟩ := access_toList .write (storeAddress i s)
  exact ⟨_, _, by rw [accesses, fetchesFrom_eq_map], length_le_three i, hreads, hwrites, hread, hwrite⟩

/-! ### The memory after an instruction -/

/-- An instruction leaves the memory as it is, or writes the one cell at its `storeAddress`. -/
theorem exec_memory {i : Instr} {s t : State} (h : exec i s = .next t) :
    (storeAddress i s = none ∧ t.memory = s.memory) ∨
      ∃ ea v, storeAddress i s = some ea ∧ t.memory = s.memory.write ea v := by
  cases i
  case movDpA | movAbsA | movAbsIdxXA | movAbsIdxYA | movDpX | movAbsX | movDpY | movAbsY | movDpImm | incDp | incAbs |
      decDp | decAbs | aslDp | aslAbs | lsrDp | lsrAbs | rolDp | rolAbs | rorDp | rorAbs =>
    cases h
    exact .inr ⟨_, _, rfl, rfl⟩
  case bpl | bmi | bvc | bvs | bcc | bcs | bne | beq =>
    cases h
    exact .inl ⟨rfl, by rw [State.branchIf_frame]; rfl⟩
  all_goals
    cases h
    exact .inl ⟨rfl, rfl⟩

theorem exec_readByte_of_ne {i : Instr} {s t : State} (h : exec i s = .next t) {a : Address}
    (ha : storeAddress i s ≠ some a) : t.readByte a = s.readByte a := by
  rcases exec_memory h with ⟨-, hm⟩ | ⟨ea, v, hea, hm⟩
  · exact State.readByte_congr hm a
  · have hne : a ≠ ea := fun heq => ha (heq ▸ hea)
    exact (State.readByte_congr (s := s.writeByte ea v) hm a).trans (s.readByte_writeByte_of_ne v hne)

/-! ### What an instruction depends on in memory

`State.AgreeOn addrs` is kept by every update of the state; a write of one byte on both sides makes the states agree on
its address. So states that agree on the byte read end an instruction in states that agree on the byte written. -/

namespace State.AgreeOn

variable {addrs : List Address} {ea : Address} {s t : State}

theorem readByte_eq (h : AgreeOn [ea] s t) : t.readByte ea = s.readByte ea := by
  obtain ⟨-, hread⟩ := h
  exact hread ea List.mem_cons_self

theorem frame (h : AgreeOn addrs s t) : t = { s with memory := t.memory } := h.1

theorem nil (h : AgreeOn addrs s t) : AgreeOn [] s t := ⟨h.frame, nofun⟩

theorem setPc (h : AgreeOn addrs s t) (target : Address) : AgreeOn addrs (s.setPc target) (t.setPc target) := by
  obtain ⟨ht, hread⟩ := h
  exact ⟨congrArg (·.setPc target) ht, hread⟩

theorem skipOperands (h : AgreeOn addrs s t) (n : Nat) : AgreeOn addrs (s.skipOperands n) (t.skipOperands n) := by
  obtain ⟨ht, hread⟩ := h
  exact ⟨congrArg (·.skipOperands n) ht, hread⟩

theorem refundUntaken (h : AgreeOn addrs s t) : AgreeOn addrs s.refundUntaken t.refundUntaken := by
  obtain ⟨ht, hread⟩ := h
  exact ⟨congrArg State.refundUntaken ht, hread⟩

theorem setReg (h : AgreeOn addrs s t) (k : Reg) (v : Byte) : AgreeOn addrs (s.setReg k v) (t.setReg k v) := by
  obtain ⟨ht, hread⟩ := h
  have hset := congrArg (·.setReg k v) ht
  cases k <;> exact ⟨hset, hread⟩

theorem setNZ (h : AgreeOn addrs s t) (v : Byte) : AgreeOn addrs (s.setNZ v) (t.setNZ v) := by
  obtain ⟨ht, hread⟩ := h
  exact ⟨congrArg (·.setNZ v) ht, hread⟩

theorem setC (h : AgreeOn addrs s t) (b : Bool) : AgreeOn addrs (s.setC b) (t.setC b) := by
  obtain ⟨ht, hread⟩ := h
  exact ⟨congrArg (·.setC b) ht, hread⟩

theorem writeByte (h : AgreeOn addrs s t) (ea : Address) (v : Byte) :
    AgreeOn [ea] (s.writeByte ea v) (t.writeByte ea v) := by
  refine ⟨congrArg (·.writeByte ea v) h.frame, fun a ha => ?_⟩
  obtain rfl := List.mem_singleton.1 ha
  rw [readByte_writeByte_same, readByte_writeByte_same]

theorem load (h : AgreeOn addrs s t) (k : Reg) {v w : Byte} (hv : w = v) : AgreeOn addrs (s.load k v) (t.load k w) := by
  subst hv
  exact (h.setReg k w).setNZ w

theorem logical (h : AgreeOn addrs s t) (op : Byte → Byte → Byte) {m n : Byte} (hm : n = m) :
    AgreeOn addrs (s.logical op m) (t.logical op n) := by
  have ha : t.a = s.a := by rw [h.frame]
  exact h.load .a (by rw [ha, hm])

theorem modifyReg (h : AgreeOn addrs s t) (op : Byte → Byte) (k : Reg) :
    AgreeOn addrs (s.modifyReg op k) (t.modifyReg op k) := by
  have hk : t.reg k = s.reg k := by rw [h.frame]; cases k <;> rfl
  exact h.load k (congrArg op hk)

theorem modifyMem (h : AgreeOn [ea] s t) (op : Byte → Byte) : AgreeOn [ea] (s.modifyMem op ea) (t.modifyMem op ea) := by
  rw [modifyMem_eq, modifyMem_eq, h.readByte_eq]
  exact (h.writeByte ea _).setNZ _

theorem shiftA (h : AgreeOn addrs s t) (op : Byte → Bool → Byte × Bool) : AgreeOn addrs (s.shiftA op) (t.shiftA op) := by
  have ha : t.a = s.a := by rw [h.frame]
  have hC : t.flagC = s.flagC := by rw [h.frame]; rfl
  rw [shiftA_eq, shiftA_eq, ha, hC]
  exact ((h.setReg .a _).setC _).setNZ _

theorem shiftMem (h : AgreeOn [ea] s t) (op : Byte → Bool → Byte × Bool) :
    AgreeOn [ea] (s.shiftMem op ea) (t.shiftMem op ea) := by
  have hC : t.flagC = s.flagC := by rw [h.frame]; rfl
  rw [shiftMem_eq, shiftMem_eq, h.readByte_eq, hC]
  exact ((h.writeByte ea _).setC _).setNZ _

theorem branchIf (h : AgreeOn addrs s t) (cond : Bool) (rel : Byte) :
    AgreeOn addrs (s.branchIf cond rel) (t.branchIf cond rel) := by
  have hpc : t.pc = s.pc := by rw [h.frame]
  cases cond
  · exact h.refundUntaken
  · rw [branchIf_true, branchIf_true, relTarget, relTarget, hpc]
    exact h.setPc _

theorem storeAddress_eq (h : AgreeOn addrs s t) (i : Instr) : storeAddress i t = storeAddress i s := by
  rw [h.frame]
  cases i <;> rfl

/-- States that agree on the byte that an instruction reads complete it in states that agree on the byte that it writes. -/
theorem exec {i : Instr} (h : AgreeOn (loadAddress i s).toList s t) :
    ∃ s' t', Machine.exec i s = .next s' ∧ Machine.exec i t = .next t' ∧ AgreeOn (storeAddress i s).toList s' t' := by
  have hskip := h.nil.skipOperands
  -- With the frame substituted, registers, flags and effective addresses of the two states are the same by definition.
  obtain ⟨m, rfl⟩ : ∃ m, t = { s with memory := m } := ⟨_, h.frame⟩
  cases i
  case movAImm | movXImm | movYImm => exact ⟨_, _, rfl, rfl, (hskip 1).load _ rfl⟩
  case movADp | movXDp | movYDp => exact ⟨_, _, rfl, rfl, (hskip 1).load _ h.readByte_eq⟩
  case movAAbs | movAAbsIdxX | movAAbsIdxY | movXAbs | movYAbs => exact ⟨_, _, rfl, rfl, (hskip 2).load _ h.readByte_eq⟩
  case orAImm | andAImm | eorAImm => exact ⟨_, _, rfl, rfl, (hskip 1).logical _ rfl⟩
  case orADp | andADp | eorADp => exact ⟨_, _, rfl, rfl, (hskip 1).logical _ h.readByte_eq⟩
  case orAAbs | orAAbsIdxX | orAAbsIdxY | andAAbs | andAAbsIdxX | andAAbsIdxY | eorAAbs | eorAAbsIdxX | eorAAbsIdxY =>
    exact ⟨_, _, rfl, rfl, (hskip 2).logical _ h.readByte_eq⟩
  case movDpA | movAbsA | movAbsIdxXA | movAbsIdxYA | movDpX | movAbsX | movDpY | movAbsY | movDpImm =>
    exact ⟨_, _, rfl, rfl, (hskip _).writeByte _ _⟩
  case incA | incX | incY | decA | decX | decY => exact ⟨_, _, rfl, rfl, h.modifyReg _ _⟩
  case incDp | incAbs | decDp | decAbs => exact ⟨_, _, rfl, rfl, (h.skipOperands _).modifyMem _⟩
  case aslA | lsrA | rolA | rorA => exact ⟨_, _, rfl, rfl, h.shiftA _⟩
  case aslDp | aslAbs | lsrDp | lsrAbs | rolDp | rolAbs | rorDp | rorAbs =>
    exact ⟨_, _, rfl, rfl, (h.skipOperands _).shiftMem _⟩
  case bra => exact ⟨_, _, rfl, rfl, (hskip 1).setPc _⟩
  case bpl | bmi | bvc | bvs | bcc | bcs | bne | beq => exact ⟨_, _, rfl, rfl, (hskip 1).branchIf _ _⟩

end State.AgreeOn

/-- Settles O39: `State.AgreeOn.exec`, and for the other bytes `exec_readByte_of_ne` in both states, whose store addresses
are the same. -/
theorem effectsReadNoOtherByte : Obligations.EffectsReadNoOtherByte := by
  intro i s s' t h hs
  obtain ⟨u, t', hu, hs', hframe, hstored⟩ := h.exec
  rw [hs] at hu
  cases hu
  refine ⟨t', hs', hframe, fun a ha => hstored a (Option.mem_toList.2 ha), fun a ha => ?_⟩
  exact ⟨exec_readByte_of_ne hs ha, exec_readByte_of_ne hs' (by rwa [h.storeAddress_eq])⟩

end Sys2Proof.Machine

/-! Proofs. What a write makes the next step fetch (rules R52, R65, R122, R220, R245). -/

namespace Sys2Proof

/-- Two operand bytes are enough for every format, so an opcode byte refused with two of them is refused with any. -/
theorem OperandsAfter.error_of_error {op : Byte} {operands : List Byte → DecodeResult} (h : OperandsAfter op operands)
    {b₁ b₂ : Byte} {e : DecodeError} (he : operands [b₁, b₂] = .error e) (bytes : List Byte) :
    operands bytes = .error e := by
  cases h with
  | unassigned => exact he
  | noOperand | byteOperand | wordOperand | immThenDp => cases he

/-- The decoder refuses an unassigned opcode byte whatever follows it. -/
theorem decode_of_unassigned {op : Byte} (h : assigned op = false) (rest : List Byte) :
    ∃ e, decode (op :: rest) = .error e := by
  rw [assigned] at h
  split at h
  · cases h
  · next e he => exact ⟨e, (decodeOperands_operandsAfter op).error_of_error he rest⟩

theorem decode_of_decodeTableWord {nbits w : Nat} {i : Instr} (h : decodeTableWord nbits w = some i) :
    ∃ rest, decode (tableBytes nbits w) = .ok (i, rest) := by
  rw [decodeTableWord] at h
  split at h
  · next j rest hj =>
    cases h
    exact ⟨rest, hj⟩
  · cases h

namespace Machine

/-- Rule R220. -/
theorem stepWith_of_unassigned {s : State} (h : assigned (s.readByte s.pc) = false) (T : Config.CostTable) :
    stepWith T s = .fault (.unimplementedInstruction s.pc (s.readByte s.pc)) := by
  obtain ⟨e, he⟩ := decode_of_unassigned h [s.readByte (s.pc + 1#16), s.readByte (s.pc + 2#16)]
  rw [stepWith, State.peek, State.bytesAtPc, he]
  rfl

theorem exec_movAbsA (addr : Address) (s : State) :
    exec (.movAbsA addr) s = .next ((s.skipOperands 2).writeByte addr s.a) := rfl

/-- Settles O50: the step writes A at `pc + 3`, where it leaves `pc`. -/
theorem storeIntoTheNextOpcodeIsFetched : Obligations.StoreIntoTheNextOpcodeIsFetched := by
  intro T s t rest hpeek h
  rw [stepWith_of_peek hpeek, perform, exec_movAbsA, State.commit_a] at h
  injection h with ht
  have hpc : t.pc = s.pc + 3#16 := by
    rw [← ht]
    exact BitVec.add_assoc s.pc 1#16 2#16
  have hread : t.readByte t.pc = s.a := by rw [hpc, ← ht, State.readByte_writeByte_same]
  refine ⟨hpc, hread, fun ha => ?_⟩
  rw [stepWith_of_unassigned (by rwa [hread]), hread, hpc]

/-- Host writes change the memory and nothing else (rule R245). -/
theorem State.writeBytes_frame (bytes : List Byte) (s : State) (addr : Address) :
    s.writeBytes addr bytes = { s with memory := (s.writeBytes addr bytes).memory } := by
  induction bytes generalizing s addr with
  | nil => rfl
  | cons v bytes ih => exact ih (s.writeByte addr v) (addr + 1#16)

/-- Three bytes written from `pc` on are the bytes that the decoder peeks at. -/
theorem State.bytesAtPc_writeBytes (s : State) (b₀ b₁ b₂ : Byte) :
    (s.writeBytes s.pc [b₀, b₁, b₂]).bytesAtPc = [b₀, b₁, b₂] := by
  simp [writeBytes, bytesAtPc, readByte_writeByte, BitVec.add_assoc]

/-- Settles O45. -/
theorem stepRunsTheStoredFetchWord : Obligations.StepRunsTheStoredFetchWord := by
  intro s nbits w i h u
  have hu : u = { s with memory := u.memory } := State.writeBytes_frame _ s s.pc
  obtain ⟨rest, hrest⟩ := decode_of_decodeTableWord h
  have hpeek : u.peek = .ok (i, rest) := (congrArg decode (s.bytesAtPc_writeBytes _ _ _)).trans hrest
  refine ⟨hu, ?_⟩
  rw [step, stepWith_of_peek hpeek, perform, hu]
  rfl

end Machine

end Sys2Proof

/-! Proofs. Encoding: the round trip in both directions, the unassigned opcodes, the branch opcodes (rules R60 to R67, R209). -/

namespace Sys2Proof

/-! ### The round trip (rules R60 to R63, R67) -/

/-- The two bytes of an absolute operand, low byte first, are read back as that operand (rule R62). -/
theorem wordOperand_loByte_hiByte (mk : Address → Instr) (addr : Address) (rest : List Byte) :
    wordOperand mk (loByte addr :: hiByte addr :: rest) = .ok (mk addr, rest) := by
  rw [wordOperand, littleEndian_loByte_hiByte]

/-- The words of an instruction decode to it, whatever follows them. -/
theorem decode_encode_append (i : Instr) (rest : List Byte) : decode (encode i ++ rest) = .ok (i, rest) := by
  cases i
  case movAAbs addr | movAAbsIdxX addr | movAAbsIdxY addr | movXAbs addr | movYAbs addr | movAbsA addr |
      movAbsIdxXA addr | movAbsIdxYA addr | movAbsX addr | movAbsY addr | orAAbs addr | orAAbsIdxX addr |
      orAAbsIdxY addr | andAAbs addr | andAAbsIdxX addr | andAAbsIdxY addr | eorAAbs addr | eorAAbsIdxX addr |
      eorAAbsIdxY addr | incAbs addr | decAbs addr | aslAbs addr | lsrAbs addr | rolAbs addr | rorAbs addr =>
    exact wordOperand_loByte_hiByte _ addr rest
  all_goals rfl

/-- Settles O2: the formats without a 16-bit operand by evaluation, format `ABS` by `littleEndian_loByte_hiByte`. -/
theorem decodeOfEncodeIsTheInstruction : Obligations.DecodeOfEncodeIsTheInstruction := decode_encode_append

/-- Settles O3: every row of the decoder reads the bytes that the encoder writes (`decodeOperands_operandsAfter`). -/
theorem encodeOfDecodeIsTheBytes : Obligations.EncodeOfDecodeIsTheBytes := fun _ _ _ => decode_eq_encode_append

/-- Settles O1: the eleven words are evaluated. -/
theorem writtenOutWordsDecode : Obligations.WrittenOutWordsDecode :=
  ⟨rfl, rfl, rfl, rfl, rfl, rfl, rfl, rfl, rfl, rfl, rfl⟩

/-! ### The unassigned opcodes (rules R63 to R65) -/

/-- An unassigned byte is none of the 66 rows of rule R63. -/
theorem decodeOperands_of_unassigned {op : Byte} (h : assigned op = false) :
    decodeOperands op = fun _ => .error (.unassignedOpcode op) := by
  unfold decodeOperands
  split
  case h_67 => rfl
  all_goals cases h

/-- An assigned opcode starts an instruction with that opcode, whatever two bytes follow: were they refused, so would be
the two zero bytes by which `assigned` tells. -/
theorem decode_of_assigned {op : Byte} (h : assigned op = true) (b₁ b₂ : Byte) :
    ∃ i rest, decode [op, b₁, b₂] = .ok (i, rest) ∧ i.opcode = op := by
  rcases hdec : decode [op, b₁, b₂] with e | ⟨i, rest⟩
  · have hzero : decode [op, 0, 0] = .error e := (decodeOperands_operandsAfter op).error_of_error hdec [0, 0]
    rw [assigned, hzero] at h
    cases h
  · obtain ⟨hop, -⟩ := List.cons.inj (decode_eq_encode_append hdec)
    exact ⟨i, rest, rfl, hop.symm⟩

/-- Settles O4: the list of rule R64 is compared with rule R63's map byte by byte; that an unassigned byte is refused and an
assigned one accepted whatever follows is `decodeOperands_of_unassigned` and `decode_of_assigned`. -/
theorem unassignedOpcodesAreTheListed : Obligations.UnassignedOpcodesAreTheListed := by
  refine fun op => ⟨?_, fun h rest => congrFun (decodeOperands_of_unassigned h) rest, decode_of_assigned⟩
  revert op
  decide

namespace Machine

/-! ### The branch opcodes (rules R66, R209) -/

/-- The flag that bits 7:6 of a conditional branch opcode select: 0 N, 1 V, 2 C, 3 Z (rule R66). -/
def branchFlag (op : Byte) (s : State) : Bool :=
  match op.getLsbD 7, op.getLsbD 6 with
  | false, false => s.flagN
  | false, true => s.flagV
  | true, false => s.flagC
  | true, true => s.flagZ

/-- A conditional branch follows the contract of rule R209, taken when the flag that its opcode byte selects has the value
of the opcode's bit 5 (rule R66). -/
theorem exec_conditional_branchFlag {i : Instr} (hi : i.conditional = true) (s : State) :
    ∃ cond rel, i.operandBytes = [rel] ∧ exec i s = .next ((s.skipOperands 1).branchIf cond rel) ∧
      (cond = true ↔ branchFlag i.opcode s = i.opcode.getLsbD 5) := by
  cases i
  case bpl | bvc | bcc | bne | bmi | bvs | bcs | beq => exact ⟨_, _, rfl, rfl, by simp [branchFlag, Instr.opcode]⟩
  all_goals cases hi

/-- Settles O41: `exec_conditional_branchFlag`, and the two outcomes of the contract. -/
theorem branchConditionsFollowTheOpcodeBits : Obligations.BranchConditionsFollowTheOpcodeBits := by
  intro i s t hi h
  obtain ⟨cond, rel, hrel, hexec, htaken⟩ := exec_conditional_branchFlag hi s
  rw [hexec] at h
  cases h
  refine ⟨rel, hrel, fun hflag => ?_, fun hflag => ?_⟩
  · rw [htaken.2 hflag]
    exact ⟨rfl, rfl⟩
  · rw [Bool.eq_false_of_not_eq_true (mt htaken.1 hflag)]
    exact ⟨rfl, rfl⟩

/-! ### The words at `pc` (rules R60, R80, R81) -/

theorem State.getElem_bytesAtPc (s : State) (k : Nat) (hk : k < s.bytesAtPc.length) :
    s.bytesAtPc[k] = s.readByte (s.pc + BitVec.ofNat 16 k) := by
  match k, hk with
  | 0, _ => exact congrArg s.readByte (BitVec.add_zero _).symm
  | 1, _ => rfl
  | 2, _ => rfl

/-- Words that stand in memory from `pc` on are what the decoder peeks at. -/
theorem State.peek_of_words {s : State} {i : Instr}
    (h : ∀ k (hk : k < (encode i).length), s.readByte (s.pc + BitVec.ofNat 16 k) = (encode i)[k]) :
    ∃ rest, s.peek = .ok (i, rest) := by
  have hprefix : encode i <+: s.bytesAtPc :=
    List.prefix_iff_getElem.2 ⟨length_le_three i, fun k hk => by rw [getElem_bytesAtPc, h k hk]⟩
  obtain ⟨rest, hrest⟩ := hprefix
  exact ⟨rest, by rw [peek, ← hrest, decode_encode_append]⟩

/-- Settles O44: the decoder peeks at the words (`State.peek_of_words`), and the step performs what it decodes. -/
theorem stepRunsTheWordsAtPc : Obligations.StepRunsTheWordsAtPc := by
  intro s i h
  obtain ⟨rest, hpeek⟩ := State.peek_of_words h
  exact ⟨stepWith_of_peek hpeek, fun T => stepWith_of_peek hpeek⟩

end Machine

end Sys2Proof

/-! Proofs. The execution loop (rules R80 to R84, R247): its rounds, what bounds them, and where a run stops. -/

namespace Sys2Proof.Machine

/-! ### What the check at an instruction boundary decides -/

/-- The byte at `pc` is assigned when the decoder finds an instruction there, and only then. -/
theorem State.assigned_of_peek {s : State} {i : Instr} {rest : List Byte} (h : s.peek = .ok (i, rest)) :
    assigned (s.readByte s.pc) = true := by
  by_contra hop
  obtain ⟨e, he⟩ := decode_of_unassigned (Bool.eq_false_of_not_eq_true hop)
    [s.readByte (s.pc + 1#16), s.readByte (s.pc + 2#16)]
  exact nomatch h.symm.trans he

theorem State.unassigned_of_peek {s : State} {e : DecodeError} (h : s.peek = .error e) :
    assigned (s.readByte s.pc) = false := by
  by_contra hop
  obtain ⟨i, rest, hi, -⟩ := decode_of_assigned (Bool.eq_true_of_not_eq_false hop) (s.readByte (s.pc + 1#16))
    (s.readByte (s.pc + 2#16))
  exact nomatch h.symm.trans hi

/-- The check stops at an assigned opcode whose table cost does not fit (rule R82), or at an unassigned one (rule R220). -/
theorem check_stop {T : Config.CostTable} {target : Nat} {s : State} {o : RunOutcome} (h : check T target s = .stop o) :
    (o = .budgetStop ∧ ∃ i rest, s.peek = .ok (i, rest) ∧ target < s.cycles + T i) ∨
      (o = .fault s.unimplemented ∧ assigned (s.readByte s.pc) = false) := by
  rcases hp : s.peek with e | ⟨i, rest⟩
  · rw [check_of_error hp] at h
    cases h
    exact .inr ⟨rfl, State.unassigned_of_peek hp⟩
  · rw [check_of_ok hp] at h
    split at h
    · next hcost =>
      cases h
      exact .inl ⟨rfl, i, rest, rfl, hcost⟩
    · cases h

/-! ### Rounds of the loop -/

/-- A number of rounds of the loop of rule R80 from one state to another, an instruction executed in each. -/
inductive Rounds (T : Config.CostTable) (target : Nat) : Nat → State → State → Prop
  | zero (s : State) : Rounds T target 0 s s
  | succ {n : Nat} {s t u : State} {i : Instr} (hcheck : check T target s = .execute i)
      (hnext : perform T i s = .next t) (hrest : Rounds T target n t u) : Rounds T target (n + 1) s u

section
variable {T : Config.CostTable} {target n : Nat} {s t u : State} {i : Instr}

/-- A round is a step. -/
theorem stepWith_of_round (hcheck : check T target s = .execute i) (hnext : perform T i s = .next t) :
    stepWith T s = .next t := by
  obtain ⟨⟨rest, hpeek⟩, -⟩ := check_execute.1 hcheck
  rw [stepWith_of_peek hpeek, hnext]

theorem stepsWith_of_round (hcheck : check T target s = .execute i) (hnext : perform T i s = .next t) (n : Nat) :
    stepsWith T (n + 1) s = stepsWith T n t := by
  simp only [stepsWith, stepWith_of_round hcheck hnext]

/-- A round takes at least one cycle and does not pass the target. -/
theorem cycles_of_round (hT : Admissible T) (hcheck : check T target s = .execute i) (hnext : perform T i s = .next t) :
    s.cycles < t.cycles ∧ t.cycles ≤ target := by
  obtain ⟨⟨rest, hpeek⟩, hfits⟩ := check_execute.1 hcheck
  obtain ⟨hgrows, hfull | ⟨-, -, hless⟩⟩ :=
    stepAddsItsCostOrTwoLess T s t i rest hT hpeek (stepWith_of_round hcheck hnext)
  · exact ⟨hgrows, by omega⟩
  · exact ⟨hgrows, by omega⟩

/-- The loop executes rounds until its check stops it; where every round takes a cycle, more rounds than cycles remain are
enough (rule R84). -/
theorem loop_rounds (hT : Admissible T) {rounds : Nat} (h : target - s.cycles < rounds) :
    Rounds T target (tracedLoop T target rounds s).1.length s (runLoop T target rounds s).2 ∧
      check T target (runLoop T target rounds s).2 = .stop (runLoop T target rounds s).1 := by
  induction rounds generalizing s with
  | zero => exact absurd h (Nat.not_lt_zero _)
  | succ rounds ih =>
    rcases hcheck : check T target s with o | i
    · rw [tracedLoop_stop hcheck, runLoop_stop hcheck]
      exact ⟨.zero s, hcheck⟩
    · obtain ⟨t, hnext, -⟩ := perform_effect T i s
      obtain ⟨hgrows, hle⟩ := cycles_of_round hT hcheck hnext
      obtain ⟨hrounds, hstop⟩ := ih (s := t) (by omega)
      rw [tracedLoop_execute hcheck hnext, runLoop_execute hcheck hnext]
      exact ⟨.succ hcheck hnext hrounds, hstop⟩

/-- A run is as many rounds as it emits trace records, and stops where the check does. -/
theorem run_rounds (hT : Admissible T) (budget : Nat) (s : State) :
    Rounds T (s.cycles + budget) (executed T budget s) s (run T budget s).2 ∧
      check T (s.cycles + budget) (run T budget s).2 = .stop (run T budget s).1 :=
  loop_rounds hT (by omega)

namespace Rounds

theorem append {m : Nat} (h : Rounds T target n s t) (h' : Rounds T target m t u) : Rounds T target (n + m) s u := by
  induction h with
  | zero => rwa [Nat.zero_add]
  | succ hcheck hnext _ ih =>
    rw [Nat.add_right_comm]
    exact succ hcheck hnext (ih h')

/-- What fits a target fits a later one. -/
theorem mono {target' : Nat} (h : Rounds T target n s u) (hle : target ≤ target') : Rounds T target' n s u := by
  induction h with
  | zero s => exact .zero s
  | succ hcheck hnext _ ih =>
    obtain ⟨hpeek, hfits⟩ := check_execute.1 hcheck
    exact succ (check_execute.2 ⟨hpeek, hfits.trans hle⟩) hnext ih

/-- Every round takes a cycle, so `cycles` grows by at least the number of rounds. -/
theorem add_le_cycles (hT : Admissible T) (h : Rounds T target n s u) : s.cycles + n ≤ u.cycles := by
  induction h with
  | zero => exact le_rfl
  | succ hcheck hnext _ ih =>
    obtain ⟨hgrows, -⟩ := cycles_of_round hT hcheck hnext
    omega

/-- No round passes the target (rule R83). -/
theorem cycles_le (hT : Admissible T) (h : Rounds T target n s u) (hs : s.cycles ≤ target) : u.cycles ≤ target := by
  induction h with
  | zero => exact hs
  | succ hcheck hnext _ ih => exact ih (cycles_of_round hT hcheck hnext).2

theorem stepsWith_eq (h : Rounds T target n s u) : stepsWith T n s = some u := by
  induction h with
  | zero => rfl
  | succ hcheck hnext _ ih => rw [stepsWith_of_round hcheck hnext, ih]

/-- Each round's instruction fitted the target when the round began (rule R82). -/
theorem fits (h : Rounds T target n s u) {m : Nat} (hm : m < n) {v : State} (hv : stepsWith T m s = some v) :
    ∃ i rest, v.peek = .ok (i, rest) ∧ v.cycles + T i ≤ target := by
  induction h generalizing m with
  | zero => exact absurd hm (Nat.not_lt_zero m)
  | @succ n s t u i hcheck hnext _ ih =>
    cases m with
    | zero =>
      cases hv
      obtain ⟨⟨rest, hpeek⟩, hfits⟩ := check_execute.1 hcheck
      exact ⟨i, rest, hpeek, hfits⟩
    | succ m =>
      rw [stepsWith_of_round hcheck hnext] at hv
      exact ih (Nat.lt_of_succ_lt_succ hm) hv

/-- The loop does not stop before rounds that it can execute. -/
theorem le_tracedLoop_length (h : Rounds T target n s u) {rounds : Nat} (hn : n ≤ rounds) :
    n ≤ (tracedLoop T target rounds s).1.length := by
  induction h generalizing rounds with
  | zero => exact Nat.zero_le _
  | succ hcheck hnext _ ih =>
    obtain ⟨rounds, rfl⟩ := Nat.exists_eq_add_of_lt (Nat.lt_of_succ_le hn)
    rw [tracedLoop_execute hcheck hnext]
    exact Nat.succ_le_succ (ih (by omega))

end Rounds

/-- The elapsed cycles of a run lie between 0 and the budget (rule R83). -/
theorem run_cycles (hT : Admissible T) (budget : Nat) (s : State) :
    s.cycles ≤ (run T budget s).2.cycles ∧ (run T budget s).2.cycles - s.cycles ≤ budget := by
  obtain ⟨hrounds, -⟩ := run_rounds hT budget s
  have hlow := hrounds.add_le_cycles hT
  have hhigh := hrounds.cycles_le hT (Nat.le_add_right _ _)
  exact ⟨by omega, by omega⟩

/-- A run executes at most as many instructions as its budget has cycles (rule R84). -/
theorem executed_le (hT : Admissible T) (budget : Nat) (s : State) : executed T budget s ≤ budget := by
  obtain ⟨hrounds, -⟩ := run_rounds hT budget s
  have hlow := hrounds.add_le_cycles hT
  have hhigh := hrounds.cycles_le hT (Nat.le_add_right _ _)
  omega

end

/-! ### The statements about `run` -/

/-- Rule R83, `run(0)`: every instruction costs at least a cycle, so the check stops it at once. -/
theorem run_zero {T : Config.CostTable} (hT : Admissible T) (s : State) :
    run T 0 s =
      (if assigned (s.readByte s.pc) then .budgetStop
       else .fault (.unimplementedInstruction s.pc (s.readByte s.pc)), s) := by
  rcases hcheck : check T (s.cycles + 0) s with o | i
  · rw [run, runLoop_stop hcheck]
    obtain ⟨rfl, i, rest, hpeek, -⟩ | ⟨rfl, hop⟩ := check_stop hcheck
    · rw [if_pos (State.assigned_of_peek hpeek)]
    · rw [hop]
      rfl
  · obtain ⟨t, hnext, -⟩ := perform_effect T i s
    obtain ⟨hgrows, hle⟩ := cycles_of_round hT hcheck hnext
    omega

/-- Settles O52: `run_rounds` gives the number of steps, `run_cycles` the bounds. -/
theorem runNeverOvershootsItsBudget : Obligations.RunNeverOvershootsItsBudget := by
  refine ⟨fun T budget s hT => ?_, fun T s hT => run_zero hT s⟩
  obtain ⟨hrounds, -⟩ := run_rounds hT budget s
  exact ⟨⟨_, hrounds.stepsWith_eq⟩, run_cycles hT budget s⟩

/-- Settles O53: a run stops where the check does (`run_rounds`), which has two outcomes (`check_stop`). -/
theorem runStopsOnlyForBudgetOrFault : Obligations.RunStopsOnlyForBudgetOrFault := by
  intro T budget s hT
  obtain ⟨-, hstop⟩ := run_rounds hT budget s
  obtain ⟨hlow, hhigh⟩ := run_cycles hT budget s
  exact ⟨hlow, hhigh, executed_le hT budget s, check_stop hstop⟩

/-- Settles O54: the number is that of the rounds of `run_rounds`. -/
theorem runIsAWholeNumberOfSteps : Obligations.RunIsAWholeNumberOfSteps := by
  intro T budget s hT
  obtain ⟨hrounds, -⟩ := run_rounds hT budget s
  exact ⟨_, executed_le hT budget s, rfl, hrounds.stepsWith_eq, fun m u hm hu => hrounds.fits hm hu⟩

/-- Settles O56: the second run's target is no later than that of the whole budget, so the rounds of both runs, one after
the other, fit the whole budget. -/
theorem splittingABudgetExecutesNoMore : Obligations.SplittingABudgetExecutesNoMore := by
  intro T a b s hT
  obtain ⟨hfirst, -⟩ := run_rounds hT a s
  obtain ⟨hsecond, -⟩ := run_rounds hT b (run T a s).2
  obtain ⟨hstart, hspent⟩ := run_cycles hT a s
  have hboth := (hfirst.mono (by omega)).append (hsecond.mono (target' := s.cycles + (a + b)) (by omega))
  have ha := executed_le hT a s
  have hb := executed_le hT b (run T a s).2
  exact hboth.le_tracedLoop_length (by omega)

/-! ### The dispatch FSM (rule R85) -/

/-- A round of the loop is two transitions, `CHECK` to `EXEC` and back. -/
theorem Fsm.advance_round {T : Config.CostTable} {target : Nat} {s t : State} {i : Instr}
    (hcheck : Machine.check T target s = .execute i) (hnext : perform T i s = .next t) (k : Nat) :
    Fsm.advance T (k + 2) ⟨.check target, s⟩ = Fsm.advance T k ⟨.check target, t⟩ := by
  simp only [advance, next, hcheck, hnext]

/-- Where the check stops, one transition leads to `IDLE` with its outcome. -/
theorem Fsm.advance_stop {T : Config.CostTable} {target : Nat} {s : State} {o : RunOutcome}
    (hcheck : Machine.check T target s = .stop o) :
    Fsm.advance T 1 ⟨.check target, s⟩ = (⟨.idle, s⟩, some o) := by
  simp only [advance, next, hcheck]

theorem Rounds.advance {T : Config.CostTable} {target n : Nat} {s u : State} (h : Rounds T target n s u) (k : Nat) :
    Fsm.advance T (k + 2 * n) ⟨.check target, s⟩ = Fsm.advance T k ⟨.check target, u⟩ := by
  induction h with
  | zero => rfl
  | succ hcheck hnext _ ih => exact (Fsm.advance_round hcheck hnext _).trans ih

/-- Settles O58: two transitions a round (`Rounds.advance`), and one to stop. -/
theorem dispatchFsmRefinesRun : Obligations.DispatchFsmRefinesRun := by
  intro T budget s hT
  obtain ⟨hrounds, hstop⟩ := run_rounds hT budget s
  exact ⟨_, (hrounds.advance 1).trans (Fsm.advance_stop hstop)⟩

/-! ### The trace hook (rule R86) -/

/-- The traced loop is the loop, with every cost table. -/
theorem tracedLoop_result (T : Config.CostTable) (target rounds : Nat) (s : State) :
    (tracedLoop T target rounds s).2 = runLoop T target rounds s := by
  induction rounds generalizing s with
  | zero => rfl
  | succ rounds ih =>
    rcases hcheck : check T target s with o | i
    · rw [tracedLoop_stop hcheck, runLoop_stop hcheck]
    · obtain ⟨t, hnext, -⟩ := perform_effect T i s
      rw [tracedLoop_execute hcheck hnext, runLoop_execute hcheck hnext, ih]

/-- The first record of the traced loop, if there is one, is that of the state it starts from. -/
theorem tracedLoop_head {T : Config.CostTable} {target rounds : Nat} {s : State} {record : TraceRecord}
    {records : List TraceRecord} (h : (tracedLoop T target (rounds + 1) s).1 = record :: records) :
    record = s.traceRecord := by
  rcases hcheck : check T target s with o | i
  · rw [tracedLoop_stop hcheck] at h
    cases h
  · obtain ⟨t, hnext, -⟩ := perform_effect T i s
    rw [tracedLoop_execute hcheck hnext] at h
    exact (List.cons.inj h).1.symm

/-- Settles O57. -/
theorem traceHookDoesNotAffectExecution : Obligations.TraceHookDoesNotAffectExecution :=
  fun T _ s => ⟨tracedLoop_result T _ _ s, fun _ _ => tracedLoop_head⟩

end Sys2Proof.Machine

/-! Proofs. The operand forms of the addressing-mode multiplexer as numbers, `BRA`, and the step at a decoded instruction
(rules R80, R81, R89 to R93, R200). -/

namespace Sys2Proof

/-- The absolute operand as a number, low byte first (rule R43). -/
theorem toNat_littleEndian (lo hi : Byte) : (littleEndian lo hi).toNat = lo.toNat + 256 * hi.toNat := by
  have hshift : (hi.setWidth 16 <<< 8).toNat = 2 ^ 8 * hi.toNat := by
    rw [BitVec.toNat_shiftLeft, BitVec.toNat_setWidth, Nat.shiftLeft_eq]
    omega
  have hlo : (lo.setWidth 16 : Address).toNat = lo.toNat := by
    rw [BitVec.toNat_setWidth]
    omega
  rw [littleEndian, BitVec.toNat_or, hshift, hlo, Nat.or_comm, ← Nat.two_pow_add_eq_or_of_lt lo.isLt, Nat.add_comm]

namespace Machine

/-- Rule R89: a byte and nine bits are too small for their 16-bit sum to wrap. -/
theorem State.toNat_eaDp (s : State) (d : Byte) :
    (s.eaDp d).toNat = d.toNat + s.pageBase.toNat := by
  rw [eaDp, BitVec.toNat_add, BitVec.toNat_setWidth, BitVec.toNat_setWidth]
  omega

/-- Rule R15. -/
theorem State.toNat_pageBase {s : State} (hp : s.pageBase = 0x000#9 ∨ s.pageBase = 0x100#9) :
    s.pageBase.toNat = if s.flagP then 0x100 else 0 := by
  rcases hp with hp | hp <;> rw [flagP, hp] <;> rfl

/-- Adding an index byte to an address, modulo 0x10000 (rules R91, R92). -/
theorem toNat_add_setWidth (addr : Address) (index : Byte) :
    (addr + index.setWidth 16).toNat = (addr.toNat + index.toNat) % 0x10000 := by
  rw [BitVec.toNat_add, BitVec.toNat_setWidth]
  omega

/-- Settles O20. -/
theorem effectiveAddressesOfTheOperandForms : Obligations.EffectiveAddressesOfTheOperandForms := by
  refine ⟨fun s d hp => ?_, fun s lo hi => toNat_littleEndian lo hi, fun s lo hi => ?_, fun s lo hi => ?_⟩
  · rw [← State.toNat_pageBase hp]
    exact ⟨s.toNat_eaDp d, s.toNat_eaDp d⟩
  · rw [State.eaAbsX, toNat_add_setWidth, toNat_littleEndian]
  · rw [State.eaAbsY, toNat_add_setWidth, toNat_littleEndian]

/-- Adding a sign-extended displacement to an address, as integers modulo 0x10000 (rule R93). -/
theorem toNat_add_signExtend (addr : Address) (rel : Byte) :
    ((addr + rel.signExtend 16).toNat : Int) = (addr.toNat + rel.toInt) % 0x10000 := by
  rw [BitVec.toNat_add, BitVec.signExtend, BitVec.toNat_ofInt]
  omega

theorem exec_bra (rel : Byte) (s : State) : exec (.bra rel) s = .next (s.setPc (s.pc + 1#16 + rel.signExtend 16)) := rfl

/-- Settles O26. -/
theorem branchAlwaysGoesToTheRelativeTarget : Obligations.BranchAlwaysGoesToTheRelativeTarget := by
  refine ⟨exec_bra, fun r s t h => ?_⟩
  rw [exec_bra] at h
  cases h
  rw [State.setPc_pc, toNat_add_signExtend, BitVec.toNat_add, BitVec.toNat_ofNat]
  omega

/-- Settles O43: the bytes are those that the decoder peeks at, and the step performs what it decodes. -/
theorem stepRunsTheDecodedInstruction : Obligations.StepRunsTheDecodedInstruction :=
  fun _ _ _ h => ⟨stepWith_of_peek h, fun _ => stepWith_of_peek h⟩

end Machine

end Sys2Proof

/-! Proofs. Load, and the frame of Load and Logical (rules R100 to R111, R140). -/

namespace Sys2Proof.Machine

/-! ### The Load contract past the operand bytes (rule R100) -/

theorem State.skipOperands_load_a (s : State) (n : Nat) (v : Byte) : (s.skipOperands n).load .a v =
    { s with pc := s.pc + BitVec.ofNat 16 n, a := v, nzAccumulator := v.setWidth 9 } := rfl

theorem State.skipOperands_load_x (s : State) (n : Nat) (v : Byte) : (s.skipOperands n).load .x v =
    { s with pc := s.pc + BitVec.ofNat 16 n, x := v, nzAccumulator := v.setWidth 9 } := rfl

theorem State.skipOperands_load_y (s : State) (n : Nat) (v : Byte) : (s.skipOperands n).load .y v =
    { s with pc := s.pc + BitVec.ofNat 16 n, y := v, nzAccumulator := v.setWidth 9 } := rfl

/-- Settles O21: five forms load A, three X and three Y, past one operand byte or two. Consuming these moves `pc` alone, so
the effective address and the byte there are those of the state before. -/
theorem loadInstructions : Obligations.LoadInstructions := by
  refine ⟨?aImm, ?aDp, ?aAbs, ?aAbsX, ?aAbsY, ?xImm, ?xDp, ?xAbs, ?yImm, ?yDp, ?yAbs⟩ <;> intro _ s
  case aImm | aDp => exact congrArg Host.Outcome.next (s.skipOperands_load_a 1 _)
  case aAbs | aAbsX | aAbsY => exact congrArg Host.Outcome.next (s.skipOperands_load_a 2 _)
  case xImm | xDp => exact congrArg Host.Outcome.next (s.skipOperands_load_x 1 _)
  case xAbs => exact congrArg Host.Outcome.next (s.skipOperands_load_x 2 _)
  case yImm | yDp => exact congrArg Host.Outcome.next (s.skipOperands_load_y 1 _)
  case yAbs => exact congrArg Host.Outcome.next (s.skipOperands_load_y 2 _)

/-! ### What Load and Logical leave unchanged (rules R100, R140) -/

/-- The Load contract leaves every other register as it is. -/
theorem State.load_reg_of_ne (s : State) {j k : Reg} (v : Byte) (h : k ≠ j) : (s.load k v).reg j = s.reg j := by
  rw [load_eq, setNZ_reg, reg_setReg, if_neg h]

/-- Load and Logical follow the Load contract at their destination register, Logical with `a OP m` (`State.logical_eq`),
past their operand bytes, and store nothing. -/
theorem exec_eq_load {i : Instr} (hi : i.cls = .load ∨ i.cls = .logical) (s : State) :
    ∃ n k v, destReg i = some k ∧ storeAddress i s = none ∧ exec i s = .next ((s.skipOperands n).load k v) := by
  cases i
  case movAImm | movADp | movAAbs | movAAbsIdxX | movAAbsIdxY | movXImm | movXDp | movXAbs | movYImm | movYDp | movYAbs |
      orAImm | orADp | orAAbs | orAAbsIdxX | orAAbsIdxY | andAImm | andADp | andAAbs | andAAbsIdxX | andAAbsIdxY |
      eorAImm | eorADp | eorAAbs | eorAAbsIdxX | eorAAbsIdxY => exact ⟨_, _, _, rfl, rfl, rfl⟩
  all_goals rcases hi with hi | hi <;> cases hi

/-- Settles O28: by `exec_eq_load`, the Load contract writes the destination register and `nz_accumulator`. -/
theorem loadAndLogicalFrame : Obligations.LoadAndLogicalFrame := by
  intro i s t hi h
  obtain ⟨n, k, v, hk, hstore, hexec⟩ := exec_eq_load hi s
  rw [hexec] at h
  cases h
  refine ⟨fun j hj => ?_, ?_, ?_, ?_, ?_, hstore, fun a => ?_⟩
  · have hkj : k ≠ j := fun heq => hj (heq ▸ hk)
    rw [State.load_reg_of_ne _ v hkj, State.skipOperands_reg]
  all_goals simp [State.load_eq]

end Sys2Proof.Machine

/-! Proofs. Store, and its frame (rules R120 to R129). -/

namespace Sys2Proof.Machine

/-- The Store contract past the operand bytes: `pc` has moved, and one byte is written (rule R120). -/
theorem State.skipOperands_store (s : State) (n : Nat) (ea : Address) (v : Byte) : (s.skipOperands n).store ea v =
    { s with pc := s.pc + BitVec.ofNat 16 n, memory := s.memory.write ea v } := rfl

/-- A Store reads no data, and follows the Store contract at its `storeAddress`, past its operand bytes. -/
theorem exec_eq_store {i : Instr} (hi : i.cls = .store) (s : State) :
    ∃ n ea v, loadAddress i s = none ∧ storeAddress i s = some ea ∧ exec i s = .next ((s.skipOperands n).store ea v) := by
  cases i
  case movDpA | movAbsA | movAbsIdxXA | movAbsIdxYA | movDpX | movAbsX | movDpY | movAbsY | movDpImm =>
    exact ⟨_, _, _, rfl, rfl, rfl⟩
  all_goals cases hi

/-- Settles O29: by `exec_eq_store`, `State.skipOperands_store` names the two fields that change; of the memory, one cell. -/
theorem storeFrame : Obligations.StoreFrame := by
  intro i s t hi h
  obtain ⟨n, ea, v, -, hea, hexec⟩ := exec_eq_store hi s
  rw [hexec, State.skipOperands_store] at h
  cases h
  exact ⟨State.reg_congr rfl rfl rfl, rfl, rfl, rfl, rfl, rfl, ea, hea, fun _ => s.readByte_writeByte_of_ne v⟩

/-- Settles O22: three forms consume one operand byte, six consume two. Consuming these moves `pc` alone, so the effective
address and the source register are those of the state before. -/
theorem storeInstructions : Obligations.StoreInstructions := by
  refine ⟨?dpA, ?absA, ?absXA, ?absYA, ?dpX, ?absX, ?dpY, ?absY, ?dpImm, ?noRead⟩
  case dpA | dpX | dpY =>
    intro _ s
    exact congrArg Host.Outcome.next (s.skipOperands_store 1 _ _)
  case absA | absXA | absYA | absX | absY =>
    intro _ s
    exact congrArg Host.Outcome.next (s.skipOperands_store 2 _ _)
  case dpImm =>
    intro _ _ s
    exact congrArg Host.Outcome.next (s.skipOperands_store 2 _ _)
  case noRead =>
    intro i s hi
    obtain ⟨n, ea, v, hnone, -⟩ := exec_eq_store hi s
    exact hnone

end Sys2Proof.Machine

/-! Proofs. Logical (rules R140 to R155). -/

namespace Sys2Proof.Machine

/-- The Logical contract past the operand bytes: the Load contract of `a OP m` at A (rule R140). -/
theorem State.skipOperands_logical (s : State) (n : Nat) (op : Byte → Byte → Byte) (m : Byte) :
    (s.skipOperands n).logical op m =
      { s with pc := s.pc + BitVec.ofNat 16 n, a := op s.a m, nzAccumulator := (op s.a m).setWidth 9 } := by
  rw [logical_eq, skipOperands_load_a, skipOperands_a]

/-- Settles O23: each of OR, AND and EOR has two forms past one operand byte and three past two. Consuming these moves `pc`
alone, so A, the effective address and the byte there are those of the state before. -/
theorem logicalInstructions : Obligations.LogicalInstructions := by
  refine ⟨?orImm, ?orDp, ?orAbs, ?orAbsX, ?orAbsY, ?andImm, ?andDp, ?andAbs, ?andAbsX, ?andAbsY,
    ?eorImm, ?eorDp, ?eorAbs, ?eorAbsX, ?eorAbsY⟩ <;> intro _ s
  case orImm | orDp => exact congrArg Host.Outcome.next (s.skipOperands_logical 1 orOp _)
  case orAbs | orAbsX | orAbsY => exact congrArg Host.Outcome.next (s.skipOperands_logical 2 orOp _)
  case andImm | andDp => exact congrArg Host.Outcome.next (s.skipOperands_logical 1 andOp _)
  case andAbs | andAbsX | andAbsY => exact congrArg Host.Outcome.next (s.skipOperands_logical 2 andOp _)
  case eorImm | eorDp => exact congrArg Host.Outcome.next (s.skipOperands_logical 1 eorOp _)
  case eorAbs | eorAbsX | eorAbsY => exact congrArg Host.Outcome.next (s.skipOperands_logical 2 eorOp _)

end Sys2Proof.Machine

/-! Proofs. Increment and Decrement, and their frame (rules R160 to R170). -/

namespace Sys2Proof.Machine

/-! ### The Increment/Decrement contract (rule R160) -/

theorem State.modifyReg_a (s : State) (op : Byte → Byte) : s.modifyReg op .a =
    { s with a := op s.a, nzAccumulator := (op s.a).setWidth 9 } := rfl

theorem State.modifyReg_x (s : State) (op : Byte → Byte) : s.modifyReg op .x =
    { s with x := op s.x, nzAccumulator := (op s.x).setWidth 9 } := rfl

theorem State.modifyReg_y (s : State) (op : Byte → Byte) : s.modifyReg op .y =
    { s with y := op s.y, nzAccumulator := (op s.y).setWidth 9 } := rfl

/-- The contract on a memory cell, past the operand bytes: `pc` has moved, and the cell and `nz_accumulator` are written. -/
theorem State.skipOperands_modifyMem (s : State) (n : Nat) (op : Byte → Byte) (ea : Address) :
    (s.skipOperands n).modifyMem op ea =
      { s with
        pc := s.pc + BitVec.ofNat 16 n, memory := s.memory.write ea (op (s.readByte ea)),
        nzAccumulator := (op (s.readByte ea)).setWidth 9 } := rfl

/-- A register form follows the contract at its destination register and stores nothing; a memory form follows it at its
`storeAddress`, past its operand bytes, and has no destination register. -/
theorem exec_eq_modify {i : Instr} (hi : i.cls = .incDec) (s : State) :
    (∃ op k, destReg i = some k ∧ storeAddress i s = none ∧ exec i s = .next (s.modifyReg op k)) ∨
      ∃ n op ea, destReg i = none ∧ storeAddress i s = some ea ∧
        exec i s = .next ((s.skipOperands n).modifyMem op ea) := by
  cases i
  case incA | incX | incY | decA | decX | decY => exact .inl ⟨_, _, rfl, rfl, rfl⟩
  case incDp | incAbs | decDp | decAbs => exact .inr ⟨_, _, _, rfl, rfl, rfl⟩
  all_goals cases hi

/-- Settles O30: by `exec_eq_modify`, a register form is the Load contract at its destination register
(`State.modifyReg_eq`), and a memory form writes one cell, `pc` and `nz_accumulator`. -/
theorem incrementAndDecrementFrame : Obligations.IncrementAndDecrementFrame := by
  intro i s t hi h
  rcases exec_eq_modify hi s with ⟨op, k, hk, hstore, hexec⟩ | ⟨n, op, ea, hk, hstore, hexec⟩
  · rw [hexec, State.modifyReg_eq] at h
    cases h
    refine ⟨fun j hj => ?_, ?_, ?_, ?_, ?_, fun _ hsome => absurd (hstore.symm.trans hsome) nofun, fun _ a => ?_⟩
    · have hkj : k ≠ j := fun heq => hj (heq ▸ hk)
      exact s.load_reg_of_ne _ hkj
    all_goals simp [State.load_eq]
  · rw [hexec, State.skipOperands_modifyMem] at h
    cases h
    refine ⟨fun j _ => State.reg_congr rfl rfl rfl j, rfl, rfl, rfl, rfl, fun ea' hsome => ⟨hk, fun a ha => ?_⟩,
      fun hnone => absurd (hstore.symm.trans hnone) nofun⟩
    have hea : ea = ea' := Option.some.inj (hstore.symm.trans hsome)
    exact s.readByte_writeByte_of_ne _ (hea ▸ ha)

/-- Settles O24: INC and DEC have each three register forms, a form past one operand byte and a form past two. Consuming
these moves `pc` alone, so the effective address and the byte there are those of the state before. -/
theorem incrementAndDecrementInstructions : Obligations.IncrementAndDecrementInstructions := by
  refine ⟨?incA, ?incX, ?incY, ?incDp, ?incAbs, ?decA, ?decX, ?decY, ?decDp, ?decAbs⟩
  case incA => exact fun s => congrArg Host.Outcome.next (s.modifyReg_a incOp)
  case incX => exact fun s => congrArg Host.Outcome.next (s.modifyReg_x incOp)
  case incY => exact fun s => congrArg Host.Outcome.next (s.modifyReg_y incOp)
  case incDp => exact fun _ s => congrArg Host.Outcome.next (s.skipOperands_modifyMem 1 incOp _)
  case incAbs => exact fun _ s => congrArg Host.Outcome.next (s.skipOperands_modifyMem 2 incOp _)
  case decA => exact fun s => congrArg Host.Outcome.next (s.modifyReg_a decOp)
  case decX => exact fun s => congrArg Host.Outcome.next (s.modifyReg_x decOp)
  case decY => exact fun s => congrArg Host.Outcome.next (s.modifyReg_y decOp)
  case decDp => exact fun _ s => congrArg Host.Outcome.next (s.skipOperands_modifyMem 1 decOp _)
  case decAbs => exact fun _ s => congrArg Host.Outcome.next (s.skipOperands_modifyMem 2 decOp _)

end Sys2Proof.Machine

/-! Proofs. Shift, its frame, and nine rotations in a row (rules R180 to R192). -/

namespace Sys2Proof.Machine

/-! ### What a Shift leaves unchanged (rule R180) -/

/-- `SetC` clears bits 7, 5 and 1, in every state (rule R23). -/
theorem State.setC_unusedBits (s : State) (b : Bool) : (s.setC b).statusResidual &&& 0xA2#8 = 0x00#8 := by
  rw [setC_statusResidual, BitVec.and_or_distrib_right, BitVec.and_assoc]
  cases b <;> simp [bitByte]

/-- The accumulator form follows the Shift contract at A and stores nothing; a memory form follows it at its
`storeAddress`, past its operand bytes, and has no destination register. -/
theorem exec_eq_shift {i : Instr} (hi : i.cls = .shift) (s : State) :
    (∃ op, destReg i = some .a ∧ storeAddress i s = none ∧ exec i s = .next (s.shiftA op)) ∨
      ∃ n op ea, destReg i = none ∧ storeAddress i s = some ea ∧
        exec i s = .next ((s.skipOperands n).shiftMem op ea) := by
  cases i
  case aslA | lsrA | rolA | rorA => exact .inl ⟨_, rfl, rfl, rfl⟩
  case aslDp | aslAbs | lsrDp | lsrAbs | rolDp | rolAbs | rorDp | rorAbs => exact .inr ⟨_, _, _, rfl, rfl, rfl⟩
  all_goals cases hi

/-- The Shift contract on the accumulator leaves X and Y as they are. -/
theorem State.shiftA_reg_of_ne (s : State) (op : Byte → Bool → Byte × Bool) {j : Reg} (h : Reg.a ≠ j) :
    (s.shiftA op).reg j = s.reg j := by
  rw [shiftA_eq, setNZ_reg, setC_reg, reg_setReg, if_neg h]

/-- Settles O31: by `exec_eq_shift`, a Shift writes A, or `pc` and one cell; besides `nz_accumulator` it writes
`status_residual`, by `SetC`, which keeps V, B, H and I and clears the rest but C. -/
theorem shiftFrame : Obligations.ShiftFrame := by
  intro i s t hi h
  rcases exec_eq_shift hi s with ⟨op, hk, hstore, hexec⟩ | ⟨n, op, ea, hk, hstore, hexec⟩
  · rw [hexec] at h
    cases h
    refine ⟨fun j hj => ?_, rfl, rfl, (s.setReg .a _).setC_otherFlags _, (s.setReg .a _).setC_unusedBits _, rfl,
      fun _ hsome => absurd (hstore.symm.trans hsome) nofun, fun _ _ => rfl⟩
    have haj : Reg.a ≠ j := fun heq => hj (heq ▸ hk)
    exact s.shiftA_reg_of_ne op haj
  · rw [hexec] at h
    cases h
    refine ⟨fun j _ => State.reg_congr rfl rfl rfl j, rfl, rfl, s.setC_otherFlags _, s.setC_unusedBits _, rfl,
      fun ea' hsome => ⟨hk, fun a ha => ?_⟩, fun hnone => absurd (hstore.symm.trans hnone) nofun⟩
    have hea : ea = ea' := Option.some.inj (hstore.symm.trans hsome)
    exact s.readByte_writeByte_of_ne _ (hea ▸ ha)

/-! ### Nine rotations in a row: `ROL A` and `ROR A` rotate the nine-bit quantity `{C, A}` (rules R180, R187, R190), the
one by 1 place to the left, the other by 1 to the right, which is by 8 to the left. -/

/-- A rotation of a rotation is one rotation, by the sum of the places. -/
theorem rotateLeft_rotateLeft {w : Nat} (x : BitVec w) (m n : Nat) :
    (x.rotateLeft m).rotateLeft n = x.rotateLeft (m + n) := by
  refine BitVec.eq_of_getMsbD_eq fun i hi => ?_
  have hlt : (n + i) % w < w := Nat.mod_lt _ (by omega)
  have hplace : (m + (n + i) % w) % w = (m + n + i) % w := by rw [Nat.add_mod_mod, Nat.add_assoc]
  simp [BitVec.getMsbD_rotateLeft, hi, hlt, hplace]

theorem rotateLeft_zero {w : Nat} (x : BitVec w) : x.rotateLeft 0 = x :=
  BitVec.eq_of_getMsbD_eq fun i hi => by simp [BitVec.getMsbD_rotateLeft, hi, Nat.mod_eq_of_lt hi]

theorem iterate_rotateLeft {w : Nat} (k n : Nat) (x : BitVec w) :
    (BitVec.rotateLeft · k)^[n] x = x.rotateLeft (k * n) := by
  induction n with
  | zero => exact (rotateLeft_zero x).symm
  | succ n ih => rw [Function.iterate_succ_apply', ih, rotateLeft_rotateLeft, Nat.mul_succ]

/-- As many equal rotations as there are bits restore the word. -/
theorem iterate_rotateLeft_width {w : Nat} (k : Nat) (x : BitVec w) : (BitVec.rotateLeft · k)^[w] x = x := by
  rw [iterate_rotateLeft, ← BitVec.rotateLeft_mod_eq_rotateLeft, Nat.mul_mod_left, rotateLeft_zero]

/-- The nine-bit quantity `{C, A}`. -/
def State.carryAcc (s : State) : NineBits := BitVec.cons s.flagC s.a

theorem State.setWidth_carryAcc (s : State) : s.carryAcc.setWidth 8 = s.a := BitVec.setWidth_cons

theorem State.msb_carryAcc (s : State) : s.carryAcc.msb = s.flagC := BitVec.msb_cons

/-- The Shift contract on the accumulator, on `{C, A}`. -/
theorem State.carryAcc_shiftA (s : State) (op : Byte → Bool → Byte × Bool) :
    (s.shiftA op).carryAcc = BitVec.cons (op s.a s.flagC).2 (op s.a s.flagC).1 := by
  rw [carryAcc, shiftA_eq, setNZ_flagC, setC_flagC]
  rfl

theorem cons_rolOp (v : Byte) (c : Bool) :
    BitVec.cons (rolOp v c).2 (rolOp v c).1 = (BitVec.cons c v).rotateLeft 1 := by
  ext n hn
  interval_cases n <;> simp [rolOp, bitByte, BitVec.getElem_cons, BitVec.getElem_rotateLeft]

theorem cons_rorOp (v : Byte) (c : Bool) :
    BitVec.cons (rorOp v c).2 (rorOp v c).1 = (BitVec.cons c v).rotateLeft 8 := by
  ext n hn
  interval_cases n <;> simp [rorOp, bitByte, BitVec.getElem_cons, BitVec.getElem_rotateLeft]

/-- A fold of one step that always answers is the iteration of what it answers. -/
theorem foldlM_replicate_of_some {α β : Type} {f : β → α → Option β} {g : β → β} {j : α}
    (h : ∀ u, f u j = some (g u)) (n : Nat) (s : β) : (List.replicate n j).foldlM f s = some (g^[n] s) := by
  induction n generalizing s with
  | zero => rfl
  | succ n ih =>
    rw [List.replicate_succ, List.foldlM_cons, h]
    exact ih (g s)

/-- An operation that rotates `{C, A}` restores A and C when it is done nine times. -/
theorem State.iterate_shiftA_of_rotates {op : Byte → Bool → Byte × Bool} {k : Nat}
    (hop : ∀ v c, BitVec.cons (op v c).2 (op v c).1 = (BitVec.cons c v).rotateLeft k) (s : State) :
    ((State.shiftA · op)^[9] s).a = s.a ∧ ((State.shiftA · op)^[9] s).flagC = s.flagC := by
  have hrot : Function.Semiconj carryAcc (State.shiftA · op) (BitVec.rotateLeft · k) :=
    fun u => (u.carryAcc_shiftA op).trans (hop u.a u.flagC)
  have hnine : ((State.shiftA · op)^[9] s).carryAcc = s.carryAcc :=
    (hrot.iterate_right 9 s).trans (iterate_rotateLeft_width k s.carryAcc)
  constructor
  · rw [← setWidth_carryAcc, hnine, setWidth_carryAcc]
  · rw [← msb_carryAcc, hnine, msb_carryAcc]

/-- Settles O42: both instructions rotate `{C, A}`, nine bits. -/
theorem nineRotationsRestoreAccumulatorAndCarry : Obligations.NineRotationsRestoreAccumulatorAndCarry := by
  rintro i (rfl | rfl) s
  · exact ⟨_, foldlM_replicate_of_some (g := (State.shiftA · rolOp)) (fun _ => rfl) 9 s,
      s.iterate_shiftA_of_rotates cons_rolOp⟩
  · exact ⟨_, foldlM_replicate_of_some (g := (State.shiftA · rorOp)) (fun _ => rfl) 9 s,
      s.iterate_shiftA_of_rotates cons_rorOp⟩

/-! ### The twelve instructions (rules R181 to R192) -/

/-- The Shift contract on the accumulator, field by field, where the operation answers `v` and shifts `b` out. -/
theorem State.shiftA_of_eq (s : State) {op : Byte → Bool → Byte × Bool} {v : Byte} {b : Bool}
    (h : op s.a s.flagC = (v, b)) :
    s.shiftA op =
      { s with
        a := v, nzAccumulator := v.setWidth 9,
        statusResidual := (s.statusResidual &&& 0x5C#8) ||| (if b then 1#8 else 0#8) } := by
  rw [shiftA_eq, h, setC, bitByte_eq_ite]
  rfl

/-- The Shift contract on a memory cell, past the operand bytes: `pc` has moved besides. -/
theorem State.skipOperands_shiftMem_of_eq (s : State) (n : Nat) {op : Byte → Bool → Byte × Bool} {ea : Address} {v : Byte}
    {b : Bool} (h : op (s.readByte ea) s.flagC = (v, b)) :
    (s.skipOperands n).shiftMem op ea =
      { s with
        pc := s.pc + BitVec.ofNat 16 n, memory := s.memory.write ea v, nzAccumulator := v.setWidth 9,
        statusResidual := (s.statusResidual &&& 0x5C#8) ||| (if b then 1#8 else 0#8) } := by
  rw [shiftMem_eq, skipOperands_readByte, skipOperands_flagC, h, setC, bitByte_eq_ite]
  rfl

theorem aslOp_eq (v : Byte) (c : Bool) : aslOp v c = (v <<< 1, v.getLsbD 7) := rfl

theorem lsrOp_eq (v : Byte) (c : Bool) : lsrOp v c = (v >>> 1, v.getLsbD 0) := rfl

/-- `ROL` shifts the old Carry into bit 0. -/
theorem rolOp_eq (v : Byte) (c : Bool) :
    rolOp v c = ((v <<< 1) ||| (if c then 0x01#8 else 0x00#8), v.getLsbD 7) := by
  rw [rolOp, bitByte_eq_ite]

/-- `ROR` shifts the old Carry into bit 7. -/
theorem rorOp_eq (v : Byte) (c : Bool) :
    rorOp v c = ((v >>> 1) ||| (if c then 0x80#8 else 0x00#8), v.getLsbD 0) := by
  cases c <;> rfl

/-- Settles O25: each of ASL, LSR, ROL and ROR has a form on A, a form past one operand byte and a form past two. Consuming
these moves `pc` alone, so the effective address, the byte there and the old Carry are those of the state before. -/
theorem shiftInstructions : Obligations.ShiftInstructions := by
  refine ⟨?aslA, ?aslDp, ?aslAbs, ?lsrA, ?lsrDp, ?lsrAbs, ?rolA, ?rolDp, ?rolAbs, ?rorA, ?rorDp, ?rorAbs⟩
  case aslA => exact fun s => congrArg Host.Outcome.next (s.shiftA_of_eq (aslOp_eq _ _))
  case aslDp => exact fun _ s => congrArg Host.Outcome.next (s.skipOperands_shiftMem_of_eq 1 (aslOp_eq _ _))
  case aslAbs => exact fun _ s => congrArg Host.Outcome.next (s.skipOperands_shiftMem_of_eq 2 (aslOp_eq _ _))
  case lsrA => exact fun s => congrArg Host.Outcome.next (s.shiftA_of_eq (lsrOp_eq _ _))
  case lsrDp => exact fun _ s => congrArg Host.Outcome.next (s.skipOperands_shiftMem_of_eq 1 (lsrOp_eq _ _))
  case lsrAbs => exact fun _ s => congrArg Host.Outcome.next (s.skipOperands_shiftMem_of_eq 2 (lsrOp_eq _ _))
  case rolA => exact fun s => congrArg Host.Outcome.next (s.shiftA_of_eq (rolOp_eq _ _))
  case rolDp => exact fun _ s => congrArg Host.Outcome.next (s.skipOperands_shiftMem_of_eq 1 (rolOp_eq _ _))
  case rolAbs => exact fun _ s => congrArg Host.Outcome.next (s.skipOperands_shiftMem_of_eq 2 (rolOp_eq _ _))
  case rorA => exact fun s => congrArg Host.Outcome.next (s.shiftA_of_eq (rorOp_eq _ _))
  case rorDp => exact fun _ s => congrArg Host.Outcome.next (s.skipOperands_shiftMem_of_eq 1 (rorOp_eq _ _))
  case rorAbs => exact fun _ s => congrArg Host.Outcome.next (s.skipOperands_shiftMem_of_eq 2 (rorOp_eq _ _))

end Sys2Proof.Machine

/-! Proofs. The conditional branches, and the frame of Branch (rules R200 to R209). -/

namespace Sys2Proof.Machine

/-- The conditional-branch contract past the operand byte, field by field: both outcomes start from the address after the
branch instruction (rule R209). -/
theorem State.skipOperands_branchIf (s : State) (cond : Bool) (rel : Byte) :
    (s.skipOperands 1).branchIf cond rel =
      if cond then { s with pc := s.pc + 1#16 + rel.signExtend 16 }
      else { s with pc := s.pc + 1#16, cycles := s.cycles - 2 } := by
  cases cond <;> rfl

/-- Settles O27: each conditional branch follows the contract; consuming the operand byte moves `pc` alone, so the flag it
tests is that of the state before. -/
theorem conditionalBranchInstructions : Obligations.ConditionalBranchInstructions := by
  refine ⟨?bpl, ?bmi, ?bvc, ?bvs, ?bcc, ?bcs, ?bne, ?beq⟩
  case bpl | bvc | bcc | bne | bmi | bvs | bcs | beq =>
    exact fun rel s => congrArg Host.Outcome.next (s.skipOperands_branchIf _ rel)

/-- A Branch follows the conditional-branch contract past its operand byte, `BRA` as always taken: only a conditional branch
is ever untaken (rules R200, R209). -/
theorem exec_eq_branchIf {i : Instr} (hi : i.cls = .branch) (s : State) :
    ∃ cond rel, exec i s = .next ((s.skipOperands 1).branchIf cond rel) ∧ (cond = false → i.conditional = true) := by
  cases i
  case bra => exact ⟨true, _, rfl, nofun⟩
  case bpl | bmi | bvc | bvs | bcc | bcs | bne | beq => exact ⟨_, _, rfl, fun _ => rfl⟩
  all_goals cases hi

/-- Settles O32: by `exec_eq_branchIf` and `State.branchIf_frame`, a Branch writes `pc` and `cycles` alone, and `cycles` only
where it is untaken. -/
theorem branchFrame : Obligations.BranchFrame := by
  intro i s t hi h
  obtain ⟨cond, rel, hexec, huntaken⟩ := exec_eq_branchIf hi s
  rw [hexec, State.branchIf_frame] at h
  cases h
  refine ⟨State.reg_congr rfl rfl rfl, rfl, rfl, rfl, rfl, fun _ => rfl, ?_⟩
  cases cond with
  | false => exact .inr ⟨huntaken rfl, rfl, rfl⟩
  | true => exact .inl rfl

end Sys2Proof.Machine

/-! Proofs. The one exception, what does not depend on `cycles`, and the host transactions (rules R220 to R225, R241 to R245,
R249). -/

namespace Sys2Proof.Machine

/-! ### The effect of an instruction without its cycles (rule R249) -/

/-- A state that differs from another in `cycles` alone. -/
def State.SameButCycles (s t : State) : Prop := ∃ c, t = { s with cycles := c }

/-- No update reads `cycles` but the correction of an untaken branch, which writes it. -/
theorem simulation_sameButCycles : Simulation State.SameButCycles where
  frame := by
    rintro s t ⟨c, rfl⟩
    rfl
  flagN := by
    rintro s t ⟨c, rfl⟩
    rfl
  flagZ := by
    rintro s t ⟨c, rfl⟩
    rfl
  flagC := by
    rintro s t ⟨c, rfl⟩
    rfl
  flagV := by
    rintro s t ⟨c, rfl⟩
    rfl
  setPc := fun ⟨c, h⟩ target => ⟨c, congrArg (·.setPc target) h⟩
  setReg := by
    rintro s t ⟨c, rfl⟩ k v
    cases k <;> exact ⟨c, rfl⟩
  writeByte := fun ⟨c, h⟩ ea v => ⟨c, congrArg (·.writeByte ea v) h⟩
  setNZ := fun ⟨c, h⟩ v => ⟨c, congrArg (·.setNZ v) h⟩
  setC := fun ⟨c, h⟩ b => ⟨c, congrArg (·.setC b) h⟩
  refundUntaken := fun ⟨c, h⟩ => ⟨c - 2, congrArg State.refundUntaken h⟩

namespace State.SameButCycles

variable {s t s' : State}

/-- The costs that two tables commit need not agree. -/
theorem commit (h : s.SameButCycles t) (cost cost' : Nat) : (s.commit cost).SameButCycles (t.commit cost') := by
  obtain ⟨c, rfl⟩ := h
  exact ⟨c + cost', rfl⟩

/-- Such states complete an instruction in such states. -/
theorem exec_next (h : s.SameButCycles t) {i : Instr} (hs : exec i s = .next s') :
    ∃ c', exec i t = .next { s' with cycles := c' } := by
  obtain ⟨t', ht, c', rfl⟩ := simulation_sameButCycles.exec_next h hs
  exact ⟨c', ht⟩

/-- Such states complete a step in such states, with any two cost tables: they decode the same instruction. -/
theorem stepWith_next (h : s.SameButCycles t) {T : Config.CostTable} (hs : stepWith T s = .next s')
    (T' : Config.CostTable) : ∃ c', stepWith T' t = .next { s' with cycles := c' } := by
  obtain ⟨i, rest, hpeek, hperform⟩ := Machine.stepWith_next hs
  rw [stepWith_of_peek ((simulation_sameButCycles.peek h).trans hpeek)]
  exact (h.commit (T i) (T' i)).exec_next hperform

end State.SameButCycles

/-- Settles O38: states that differ in `cycles` alone are in simulation, and so are the steps from them. -/
theorem effectsDoNotDependOnCycles : Obligations.EffectsDoNotDependOnCycles :=
  ⟨fun _ _ _ c => State.SameButCycles.exec_next ⟨c, rfl⟩,
    fun _ T' _ _ c h => State.SameButCycles.stepWith_next ⟨c, rfl⟩ h T'⟩

/-! ### The one exception (rules R220 to R225) -/

/-- Rule R81: an assigned opcode always completes. -/
theorem stepWith_of_assigned {s : State} (h : assigned (s.readByte s.pc) = true) (T : Config.CostTable) :
    ∃ t, stepWith T s = .next t := by
  obtain ⟨i, rest, hpeek, -⟩ := decode_of_assigned h (s.readByte (s.pc + 1#16)) (s.readByte (s.pc + 2#16))
  obtain ⟨t, hnext, -⟩ := perform_effect T i s
  exact ⟨t, (stepWith_of_peek hpeek).trans hnext⟩

/-- Settles O47. -/
theorem stepFaultsExactlyOnUnassignedOpcodes : Obligations.StepFaultsExactlyOnUnassignedOpcodes :=
  fun T _ => ⟨fun h => stepWith_of_unassigned h T, fun h => stepWith_of_assigned h T⟩

/-- Rule R223: the first check of a run finds the unassigned opcode before it looks at the target. -/
theorem run_of_unassigned {s : State} (h : assigned (s.readByte s.pc) = false) (T : Config.CostTable) (budget : Nat) :
    run T budget s = (.fault s.unimplemented, s) := by
  obtain ⟨e, hpeek⟩ := decode_of_unassigned h [s.readByte (s.pc + 1#16), s.readByte (s.pc + 2#16)]
  exact runLoop_stop (check_of_error hpeek) budget

/-- A loop that ends in a fault ends at an unassigned opcode, and reports it: no instruction executed raises anything. -/
theorem runLoop_fault {T : Config.CostTable} {target rounds : Nat} {s t : State} {f : Fault}
    (h : runLoop T target rounds s = (.fault f, t)) :
    f = t.unimplemented ∧ assigned (t.readByte t.pc) = false := by
  induction rounds generalizing s with
  | zero => cases h
  | succ rounds ih =>
    rcases hcheck : check T target s with o | i
    · rw [runLoop_stop hcheck] at h
      cases h
      obtain ⟨hbudget, -⟩ | ⟨hfault, hop⟩ := check_stop hcheck
      · cases hbudget
      · cases hfault
        exact ⟨rfl, hop⟩
    · obtain ⟨u, hnext, -⟩ := perform_effect T i s
      rw [runLoop_execute hcheck hnext] at h
      exact ih h

/-- Settles O55: where a run faulted the opcode is unassigned (`runLoop_fault`), so every later run stops there at once. -/
theorem faultPrecedesTheBudgetAndChangesNothing : Obligations.FaultPrecedesTheBudgetAndChangesNothing := by
  refine ⟨fun T budget _ h => run_of_unassigned h T budget, fun T budget budget' s t f h => ?_⟩
  obtain ⟨rfl, hop⟩ := runLoop_fault h
  exact run_of_unassigned hop T budget'

/-! ### The host transactions (rules R241 to R245) -/

/-- Settles O59: `mem_write` is `MemWrite`, and a fetch is a read at `pc`. -/
theorem hostMemoryAccess : Obligations.HostMemoryAccess := by
  refine ⟨fun T s a => rfl, fun T s a v => ⟨s.writeByte a v, rfl, rfl, s.readByte_writeByte_same a v,
    fun b hb => s.readByte_writeByte_of_ne v hb, fun hpc => ?_⟩⟩
  rw [State.fetch8, hpc, State.readByte_writeByte_same]

/-- Rule R241. -/
theorem transact_none {call : HostCall} (h : ∀ snap, call ≠ .construct snap) (T : Config.CostTable) :
    transact T call none = .refused .notConstructed := by
  cases call with
  | construct snap => exact absurd rfl (h snap)
  | run | snapshot | memRead | memWrite => rfl

/-- Settles O60: `transact_none`, and the rows of rule R243's table. -/
theorem hostTransactionsDoWhatTheTableSays : Obligations.HostTransactionsDoWhatTheTableSays :=
  ⟨fun T _ h => transact_none h T, fun _ _ _ => rfl, fun _ _ => rfl, fun _ _ _ => rfl⟩

end Sys2Proof.Machine
